-- ==== Sys2Proof/Word.lean ====
section
/-! DEFINITION. The machine's word types and the index types of its fixed-size stores (00_scope.md R7, R8). -/

namespace Sys2Proof

/-- A byte: a V register, a timer, a memory cell (00_scope.md R7). -/
abbrev Byte := BitVec 8

/-- A 16-bit word: I, pc, a stack entry, an instruction word (00_scope.md R7, 30_encoding.md R70). -/
abbrev Word := BitVec 16

/-- The number of a general register, V0 to VF (10_state.md R20). -/
abbrev RegIdx := Fin 16

/-- The number of a key, 0 to 15 (10_state.md R27). -/
abbrev KeyIdx := Fin 16

/-- A framebuffer column, 0 leftmost (10_state.md R28). -/
abbrev Column := Fin 64

/-- A framebuffer row, 0 topmost (10_state.md R28). -/
abbrev Row := Fin 32

/-- The flag register VF (10_state.md R21). -/
abbrev VF : RegIdx := 15

end Sys2Proof
end

