-- ==== Sys2Proof/Config.lean ====
section
/-! DEFINITION. What is fixed for the machine: the implementation parameters of 00_scope.md R7, and the random
byte stream, the one value the spec leaves free. (The font's base and bytes, parameters too, stand in
Machine/Font.lean.) -/

namespace Sys2Proof.Config

/-- `MEM_SIZE` (00_scope.md R7). -/
abbrev memSize : Nat := 4096

/-- The last valid address, 0xFFF (20_memory.md R56, 90_conflicts.md C6). -/
abbrev lastAddress : Nat := 0xFFF

/-- `STACK_DEPTH` (00_scope.md R7). -/
abbrev stackDepth : Nat := 16

/-- `PROGRAM_BASE` (00_scope.md R7; the spec's decision D2). -/
abbrev programBase : Nat := 0x200

/-- `MAX_PROGRAM_LEN`, 3584 bytes (00_scope.md R7). -/
abbrev maxProgramLen : Nat := memSize - programBase

/-- `RNG_STREAM`: the infinite sequence of bytes the random source gives (10_state.md R31, 60_exceptions.md R240).
A FREE VALUE: it has no body, so no proof can see any of its bytes, and a claim about the model holds for
every stream (decisions D17, D31; log 2). -/
opaque rngStream : Nat → Byte

end Sys2Proof.Config
end

