-- ==== Sys2Proof/Syntax.lean ====
section
/-! DEFINITION. The 34 instructions (00_scope.md R3, R15; 30_encoding.md R75), one constructor per row of
spec/opcode_table.json, in the table's order. Every operand has the type of its field (30_encoding.md R72), so every
term is an instruction of the machine. -/

namespace Sys2Proof

/-- An instruction with its operand fields. `x` and `y` are the registers of fields X and Y, `nn` is NN,
`nnn` is NNN, `n` is N. `shr` and `shl` have no `y`: they never read their Y field (42_register_alu.md R129, R131). -/
inductive Instr where
  | clearScreen
  | ret
  | jump (nnn : BitVec 12)
  | call (nnn : BitVec 12)
  | skipEqImm (x : RegIdx) (nn : Byte)
  | skipNeImm (x : RegIdx) (nn : Byte)
  | skipEqReg (x y : RegIdx)
  | loadImm (x : RegIdx) (nn : Byte)
  | addImm (x : RegIdx) (nn : Byte)
  | loadReg (x y : RegIdx)
  | orReg (x y : RegIdx)
  | andReg (x y : RegIdx)
  | xorReg (x y : RegIdx)
  | addReg (x y : RegIdx)
  | subReg (x y : RegIdx)
  | shr (x : RegIdx)
  | subn (x y : RegIdx)
  | shl (x : RegIdx)
  | skipNeReg (x y : RegIdx)
  | loadIndex (nnn : BitVec 12)
  | jumpOffset (nnn : BitVec 12)
  | random (x : RegIdx) (nn : Byte)
  | draw (x y : RegIdx) (n : BitVec 4)
  | skipKeyDown (x : RegIdx)
  | skipKeyUp (x : RegIdx)
  | loadDelay (x : RegIdx)
  | waitKey (x : RegIdx)
  | setDelay (x : RegIdx)
  | setSound (x : RegIdx)
  | addIndex (x : RegIdx)
  | loadFontAddr (x : RegIdx)
  | storeBcd (x : RegIdx)
  | storeRegs (x : RegIdx)
  | loadRegs (x : RegIdx)
  deriving DecidableEq, Repr

end Sys2Proof
end

