-- ==== Sys2Proof/WellFormed.lean ====
section
/-! DEFINITION. Well-formedness. A term of Instr is well formed by its types. What can be ill formed is an
instruction AS WRITTEN: an operation's name and a list of operands, each a register number or a plain number
(30_encoding.md R90). Here stand the names (00_scope.md R15), the written form, and the checks R90 makes on it,
each with a name. -/

namespace Sys2Proof

/-- The names of the 34 instructions (00_scope.md R15), in the order of 30_encoding.md R75. -/
inductive Mnemonic where
  | clearScreen
  | ret
  | jump
  | call
  | skipEqImm
  | skipNeImm
  | skipEqReg
  | loadImm
  | addImm
  | loadReg
  | orReg
  | andReg
  | xorReg
  | addReg
  | subReg
  | shr
  | subn
  | shl
  | skipNeReg
  | loadIndex
  | jumpOffset
  | random
  | draw
  | skipKeyDown
  | skipKeyUp
  | loadDelay
  | waitKey
  | setDelay
  | setSound
  | addIndex
  | loadFontAddr
  | storeBcd
  | storeRegs
  | loadRegs
  deriving DecidableEq, Repr

/-- A name as the spec spells it (00_scope.md R15). -/
def Mnemonic.text : Mnemonic → String
  | .clearScreen => "clear-screen"
  | .ret => "return"
  | .jump => "jump"
  | .call => "call"
  | .skipEqImm => "skip-eq-imm"
  | .skipNeImm => "skip-ne-imm"
  | .skipEqReg => "skip-eq-reg"
  | .loadImm => "load-imm"
  | .addImm => "add-imm"
  | .loadReg => "load-reg"
  | .orReg => "or"
  | .andReg => "and"
  | .xorReg => "xor"
  | .addReg => "add-reg"
  | .subReg => "sub-reg"
  | .shr => "shr"
  | .subn => "subn"
  | .shl => "shl"
  | .skipNeReg => "skip-ne-reg"
  | .loadIndex => "load-index"
  | .jumpOffset => "jump-offset"
  | .random => "random"
  | .draw => "draw"
  | .skipKeyDown => "skip-key-down"
  | .skipKeyUp => "skip-key-up"
  | .loadDelay => "load-delay"
  | .waitKey => "wait-key"
  | .setDelay => "set-delay"
  | .setSound => "set-sound"
  | .addIndex => "add-index"
  | .loadFontAddr => "load-font-addr"
  | .storeBcd => "store-bcd"
  | .storeRegs => "store-regs"
  | .loadRegs => "load-regs"

/-- An operand as written: `V` and a number, or a number, its spelling left out (30_encoding.md R90; log 11). -/
inductive AsmOperand where
  | reg (n : Nat)
  | num (n : Nat)
  deriving DecidableEq, Repr

/-- What an operand position takes (30_encoding.md R73, R90). -/
inductive OperandKind where
  | reg    -- a register V0 to VF
  | addr   -- NNN, 0 to 0xFFF
  | imm    -- NN, 0 to 0xFF
  | rows   -- N, 0 to 15
  deriving DecidableEq, Repr

/-- An instruction as written: its name, then its operands, not its characters (30_encoding.md R90; log 11). -/
structure AsmLine where
  op       : Mnemonic
  operands : List AsmOperand
  deriving DecidableEq, Repr

/-- Why a written instruction is refused, one name for each check. -/
inductive AsmProblem where
  | wrongOperandCount
  | wrongOperandKind
  | registerOutOfRange
  | addressOutOfRange
  | immediateOutOfRange
  | rowCountOutOfRange
  deriving DecidableEq, Repr

/-- The operands each instruction is written with (30_encoding.md R90; `shr` and `shl` write no Y). -/
def Mnemonic.operandKinds : Mnemonic → List OperandKind
  | .clearScreen => []
  | .ret => []
  | .jump => [.addr]
  | .call => [.addr]
  | .skipEqImm => [.reg, .imm]
  | .skipNeImm => [.reg, .imm]
  | .skipEqReg => [.reg, .reg]
  | .loadImm => [.reg, .imm]
  | .addImm => [.reg, .imm]
  | .loadReg => [.reg, .reg]
  | .orReg => [.reg, .reg]
  | .andReg => [.reg, .reg]
  | .xorReg => [.reg, .reg]
  | .addReg => [.reg, .reg]
  | .subReg => [.reg, .reg]
  | .shr => [.reg]
  | .subn => [.reg, .reg]
  | .shl => [.reg]
  | .skipNeReg => [.reg, .reg]
  | .loadIndex => [.addr]
  | .jumpOffset => [.addr]
  | .random => [.reg, .imm]
  | .draw => [.reg, .reg, .rows]
  | .skipKeyDown => [.reg]
  | .skipKeyUp => [.reg]
  | .loadDelay => [.reg]
  | .waitKey => [.reg]
  | .setDelay => [.reg]
  | .setSound => [.reg]
  | .addIndex => [.reg]
  | .loadFontAddr => [.reg]
  | .storeBcd => [.reg]
  | .storeRegs => [.reg]
  | .loadRegs => [.reg]

/-- The check of one operand against its position (30_encoding.md R90, its last sentence). -/
def checkOperand : OperandKind → AsmOperand → Option AsmProblem
  | .reg, .reg n => if n < 16 then none else some .registerOutOfRange
  | .addr, .num n => if n ≤ 0xFFF then none else some .addressOutOfRange
  | .imm, .num n => if n ≤ 0xFF then none else some .immediateOutOfRange
  | .rows, .num n => if n ≤ 15 then none else some .rowCountOutOfRange
  | .reg, .num _ => some .wrongOperandKind
  | .addr, .reg _ => some .wrongOperandKind
  | .imm, .reg _ => some .wrongOperandKind
  | .rows, .reg _ => some .wrongOperandKind

/-- The first problem of a list of operands, left to right. -/
def checkOperands : List OperandKind → List AsmOperand → Option AsmProblem
  | [], [] => none
  | k :: ks, o :: os =>
    match checkOperand k o with
    | some p => some p
    | none => checkOperands ks os
  | [], _ :: _ => some .wrongOperandCount
  | _ :: _, [] => some .wrongOperandCount

/-- The first problem of a written instruction, or none. -/
def AsmLine.problem (l : AsmLine) : Option AsmProblem := checkOperands l.op.operandKinds l.operands

/-- A written instruction is well formed when no check refuses it. -/
def AsmLine.wellFormed (l : AsmLine) : Bool := l.problem == none

end Sys2Proof
end

