-- ==== Sys2Proof/Decode.lean ====
section
/-! DEFINITION. The decoder, total on any bytes and rejecting by name; after it the encoder, the opcode table of
30_encoding.md R75 and the assembler of R90. Every bit pattern here is R75's (the spec's decision D1: the standard
patterns; log 5). -/

namespace Sys2Proof

/-! ## The fields of an instruction word (30_encoding.md R71, R72) -/

/-- The class nibble `C = w[15:12]`. -/
def fieldC (w : Word) : BitVec 4 := w.extractLsb' 12 4

/-- A nibble that names a register: 0 to 15 by its width (10_state.md R20). -/
def regOfNibble (n : BitVec 4) : RegIdx := ⟨n.toNat, n.isLt⟩

/-- `X = w[11:8]`. -/
def fieldX (w : Word) : RegIdx := regOfNibble (w.extractLsb' 8 4)

/-- `Y = w[7:4]`. -/
def fieldY (w : Word) : RegIdx := regOfNibble (w.extractLsb' 4 4)

/-- `N = w[3:0]`. -/
def fieldN (w : Word) : BitVec 4 := w.extractLsb' 0 4

/-- `NN = w[7:0]`. -/
def fieldNN (w : Word) : Byte := w.extractLsb' 0 8

/-- `NNN = w[11:0]`. -/
def fieldNNN (w : Word) : BitVec 12 := w.extractLsb' 0 12

/-! ## The decoder (30_encoding.md R74, R76) -/

/-- Why bytes are not an instruction: the spec's one reason (30_encoding.md R77), and, for the byte decoder, fewer
than the two bytes of a word. -/
inductive DecodeError where
  | unknownOpcode
  | truncated
  deriving DecidableEq, Repr

/-- Class 0 is decided by the whole word (30_encoding.md R76). -/
def decodeClass0 (w : Word) : Except DecodeError Instr :=
  if w = 0x00E0 then .ok .clearScreen
  else if w = 0x00EE then .ok .ret
  else .error .unknownOpcode

/-- Class 5 requires N = 0 (30_encoding.md R76). -/
def decodeClass5 (w : Word) : Except DecodeError Instr :=
  if fieldN w = 0x0 then .ok (.skipEqReg (fieldX w) (fieldY w)) else .error .unknownOpcode

/-- Class 8 is decided by N (30_encoding.md R76). -/
def decodeClass8 (w : Word) : Except DecodeError Instr :=
  if fieldN w = 0x0 then .ok (.loadReg (fieldX w) (fieldY w))
  else if fieldN w = 0x1 then .ok (.orReg (fieldX w) (fieldY w))
  else if fieldN w = 0x2 then .ok (.andReg (fieldX w) (fieldY w))
  else if fieldN w = 0x3 then .ok (.xorReg (fieldX w) (fieldY w))
  else if fieldN w = 0x4 then .ok (.addReg (fieldX w) (fieldY w))
  else if fieldN w = 0x5 then .ok (.subReg (fieldX w) (fieldY w))
  else if fieldN w = 0x6 then .ok (.shr (fieldX w))
  else if fieldN w = 0x7 then .ok (.subn (fieldX w) (fieldY w))
  else if fieldN w = 0xE then .ok (.shl (fieldX w))
  else .error .unknownOpcode

/-- Class 9 requires N = 0 (30_encoding.md R76). -/
def decodeClass9 (w : Word) : Except DecodeError Instr :=
  if fieldN w = 0x0 then .ok (.skipNeReg (fieldX w) (fieldY w)) else .error .unknownOpcode

/-- Class E is decided by NN (30_encoding.md R76). -/
def decodeClassE (w : Word) : Except DecodeError Instr :=
  if fieldNN w = 0x9E then .ok (.skipKeyDown (fieldX w))
  else if fieldNN w = 0xA1 then .ok (.skipKeyUp (fieldX w))
  else .error .unknownOpcode

/-- Class F is decided by NN (30_encoding.md R76). -/
def decodeClassF (w : Word) : Except DecodeError Instr :=
  if fieldNN w = 0x07 then .ok (.loadDelay (fieldX w))
  else if fieldNN w = 0x0A then .ok (.waitKey (fieldX w))
  else if fieldNN w = 0x15 then .ok (.setDelay (fieldX w))
  else if fieldNN w = 0x18 then .ok (.setSound (fieldX w))
  else if fieldNN w = 0x1E then .ok (.addIndex (fieldX w))
  else if fieldNN w = 0x29 then .ok (.loadFontAddr (fieldX w))
  else if fieldNN w = 0x33 then .ok (.storeBcd (fieldX w))
  else if fieldNN w = 0x55 then .ok (.storeRegs (fieldX w))
  else if fieldNN w = 0x65 then .ok (.loadRegs (fieldX w))
  else .error .unknownOpcode

/-- The decode of a word, by its class nibble: one of the 34 instructions with its fields, or `unknownOpcode`
(30_encoding.md R74, R76, R77). -/
def decode (w : Word) : Except DecodeError Instr :=
  match (fieldC w).toNat with
  | 0x0 => decodeClass0 w
  | 0x1 => .ok (.jump (fieldNNN w))
  | 0x2 => .ok (.call (fieldNNN w))
  | 0x3 => .ok (.skipEqImm (fieldX w) (fieldNN w))
  | 0x4 => .ok (.skipNeImm (fieldX w) (fieldNN w))
  | 0x5 => decodeClass5 w
  | 0x6 => .ok (.loadImm (fieldX w) (fieldNN w))
  | 0x7 => .ok (.addImm (fieldX w) (fieldNN w))
  | 0x8 => decodeClass8 w
  | 0x9 => decodeClass9 w
  | 0xA => .ok (.loadIndex (fieldNNN w))
  | 0xB => .ok (.jumpOffset (fieldNNN w))
  | 0xC => .ok (.random (fieldX w) (fieldNN w))
  | 0xD => .ok (.draw (fieldX w) (fieldY w) (fieldN w))
  | 0xE => decodeClassE w
  | 0xF => decodeClassF w
  | _ => .error .unknownOpcode     -- no nibble is above 15

/-- A word from its two bytes, the byte at the lower address the more significant (30_encoding.md R70,
20_memory.md R57). -/
def wordOfBytes (hi lo : Byte) : Word := hi ++ lo

/-- The two bytes of a word, the more significant first. -/
def bytesOfWord (w : Word) : List Byte := [w.extractLsb' 8 8, w.extractLsb' 0 8]

/-- The decoder on bytes: an instruction and the bytes after it (30_encoding.md R70: two bytes, always). -/
def decodeBytes : List Byte → Except DecodeError (Instr × List Byte)
  | hi :: lo :: rest =>
    match decode (wordOfBytes hi lo) with
    | .ok i => .ok (i, rest)
    | .error e => .error e
  | [_] => .error .truncated
  | [] => .error .truncated

/-! ## The encoder (30_encoding.md R73, R75, R90) -/

/-- A register number as a nibble. -/
def nibbleOfReg (r : RegIdx) : BitVec 4 := BitVec.ofNat 4 r.val

/-- Format `NNN`: `CCCC nnnn nnnn nnnn`. -/
def wordNNN (c : BitVec 4) (nnn : BitVec 12) : Word := c ++ nnn

/-- Formats `XNN` and `X`: `CCCC xxxx`, then the low byte. -/
def wordXNN (c : BitVec 4) (x : RegIdx) (nn : Byte) : Word := c ++ nibbleOfReg x ++ nn

/-- Formats `XY` and `XYN`: `CCCC xxxx yyyy`, then the low nibble. -/
def wordXYN (c : BitVec 4) (x y : RegIdx) (n : BitVec 4) : Word := c ++ nibbleOfReg x ++ nibbleOfReg y ++ n

/-- The word of an instruction: the pattern of 30_encoding.md R75 with the fields filled in; `shr` and `shl`
encode Y = 0 (R90). -/
def encode : Instr → Word
  | .clearScreen => 0x00E0
  | .ret => 0x00EE
  | .jump nnn => wordNNN 0x1 nnn
  | .call nnn => wordNNN 0x2 nnn
  | .skipEqImm x nn => wordXNN 0x3 x nn
  | .skipNeImm x nn => wordXNN 0x4 x nn
  | .skipEqReg x y => wordXYN 0x5 x y 0x0
  | .loadImm x nn => wordXNN 0x6 x nn
  | .addImm x nn => wordXNN 0x7 x nn
  | .loadReg x y => wordXYN 0x8 x y 0x0
  | .orReg x y => wordXYN 0x8 x y 0x1
  | .andReg x y => wordXYN 0x8 x y 0x2
  | .xorReg x y => wordXYN 0x8 x y 0x3
  | .addReg x y => wordXYN 0x8 x y 0x4
  | .subReg x y => wordXYN 0x8 x y 0x5
  | .shr x => wordXYN 0x8 x 0 0x6
  | .subn x y => wordXYN 0x8 x y 0x7
  | .shl x => wordXYN 0x8 x 0 0xE
  | .skipNeReg x y => wordXYN 0x9 x y 0x0
  | .loadIndex nnn => wordNNN 0xA nnn
  | .jumpOffset nnn => wordNNN 0xB nnn
  | .random x nn => wordXNN 0xC x nn
  | .draw x y n => wordXYN 0xD x y n
  | .skipKeyDown x => wordXNN 0xE x 0x9E
  | .skipKeyUp x => wordXNN 0xE x 0xA1
  | .loadDelay x => wordXNN 0xF x 0x07
  | .waitKey x => wordXNN 0xF x 0x0A
  | .setDelay x => wordXNN 0xF x 0x15
  | .setSound x => wordXNN 0xF x 0x18
  | .addIndex x => wordXNN 0xF x 0x1E
  | .loadFontAddr x => wordXNN 0xF x 0x29
  | .storeBcd x => wordXNN 0xF x 0x33
  | .storeRegs x => wordXNN 0xF x 0x55
  | .loadRegs x => wordXNN 0xF x 0x65

/-- The name of an instruction (00_scope.md R15). -/
def Instr.mnemonic : Instr → Mnemonic
  | .clearScreen => .clearScreen
  | .ret => .ret
  | .jump _ => .jump
  | .call _ => .call
  | .skipEqImm _ _ => .skipEqImm
  | .skipNeImm _ _ => .skipNeImm
  | .skipEqReg _ _ => .skipEqReg
  | .loadImm _ _ => .loadImm
  | .addImm _ _ => .addImm
  | .loadReg _ _ => .loadReg
  | .orReg _ _ => .orReg
  | .andReg _ _ => .andReg
  | .xorReg _ _ => .xorReg
  | .addReg _ _ => .addReg
  | .subReg _ _ => .subReg
  | .shr _ => .shr
  | .subn _ _ => .subn
  | .shl _ => .shl
  | .skipNeReg _ _ => .skipNeReg
  | .loadIndex _ => .loadIndex
  | .jumpOffset _ => .jumpOffset
  | .random _ _ => .random
  | .draw _ _ _ => .draw
  | .skipKeyDown _ => .skipKeyDown
  | .skipKeyUp _ => .skipKeyUp
  | .loadDelay _ => .loadDelay
  | .waitKey _ => .waitKey
  | .setDelay _ => .setDelay
  | .setSound _ => .setSound
  | .addIndex _ => .addIndex
  | .loadFontAddr _ => .loadFontAddr
  | .storeBcd _ => .storeBcd
  | .storeRegs _ => .storeRegs
  | .loadRegs _ => .loadRegs

/-- A row of the opcode table: a word `w` is the row's instruction when `w &&& mask = pattern`
(30_encoding.md R75, its `mask` and `match`). -/
structure TableRow where
  mnemonic : Mnemonic
  mask     : Word
  pattern  : Word
  deriving DecidableEq, Repr

/-- The row of each instruction name, copied from the table of 30_encoding.md R75. -/
def Mnemonic.row : Mnemonic → TableRow
  | .clearScreen => ⟨.clearScreen, 0xFFFF, 0x00E0⟩
  | .ret => ⟨.ret, 0xFFFF, 0x00EE⟩
  | .jump => ⟨.jump, 0xF000, 0x1000⟩
  | .call => ⟨.call, 0xF000, 0x2000⟩
  | .skipEqImm => ⟨.skipEqImm, 0xF000, 0x3000⟩
  | .skipNeImm => ⟨.skipNeImm, 0xF000, 0x4000⟩
  | .skipEqReg => ⟨.skipEqReg, 0xF00F, 0x5000⟩
  | .loadImm => ⟨.loadImm, 0xF000, 0x6000⟩
  | .addImm => ⟨.addImm, 0xF000, 0x7000⟩
  | .loadReg => ⟨.loadReg, 0xF00F, 0x8000⟩
  | .orReg => ⟨.orReg, 0xF00F, 0x8001⟩
  | .andReg => ⟨.andReg, 0xF00F, 0x8002⟩
  | .xorReg => ⟨.xorReg, 0xF00F, 0x8003⟩
  | .addReg => ⟨.addReg, 0xF00F, 0x8004⟩
  | .subReg => ⟨.subReg, 0xF00F, 0x8005⟩
  | .shr => ⟨.shr, 0xF00F, 0x8006⟩
  | .subn => ⟨.subn, 0xF00F, 0x8007⟩
  | .shl => ⟨.shl, 0xF00F, 0x800E⟩
  | .skipNeReg => ⟨.skipNeReg, 0xF00F, 0x9000⟩
  | .loadIndex => ⟨.loadIndex, 0xF000, 0xA000⟩
  | .jumpOffset => ⟨.jumpOffset, 0xF000, 0xB000⟩
  | .random => ⟨.random, 0xF000, 0xC000⟩
  | .draw => ⟨.draw, 0xF000, 0xD000⟩
  | .skipKeyDown => ⟨.skipKeyDown, 0xF0FF, 0xE09E⟩
  | .skipKeyUp => ⟨.skipKeyUp, 0xF0FF, 0xE0A1⟩
  | .loadDelay => ⟨.loadDelay, 0xF0FF, 0xF007⟩
  | .waitKey => ⟨.waitKey, 0xF0FF, 0xF00A⟩
  | .setDelay => ⟨.setDelay, 0xF0FF, 0xF015⟩
  | .setSound => ⟨.setSound, 0xF0FF, 0xF018⟩
  | .addIndex => ⟨.addIndex, 0xF0FF, 0xF01E⟩
  | .loadFontAddr => ⟨.loadFontAddr, 0xF0FF, 0xF029⟩
  | .storeBcd => ⟨.storeBcd, 0xF0FF, 0xF033⟩
  | .storeRegs => ⟨.storeRegs, 0xF0FF, 0xF055⟩
  | .loadRegs => ⟨.loadRegs, 0xF0FF, 0xF065⟩

/-- The 34 instruction names in the table's order. -/
def allMnemonics : List Mnemonic :=
  [.clearScreen, .ret, .jump, .call, .skipEqImm, .skipNeImm] ++
  [.skipEqReg, .loadImm, .addImm, .loadReg, .orReg, .andReg] ++
  [.xorReg, .addReg, .subReg, .shr, .subn, .shl] ++
  [.skipNeReg, .loadIndex, .jumpOffset, .random, .draw, .skipKeyDown] ++
  [.skipKeyUp, .loadDelay, .waitKey, .setDelay, .setSound, .addIndex] ++
  [.loadFontAddr, .storeBcd, .storeRegs, .loadRegs]

/-- The opcode table (30_encoding.md R75). -/
def opcodeTable : List TableRow := allMnemonics.map Mnemonic.row

/-- Whether a word matches a row. -/
def TableRow.hits (r : TableRow) (w : Word) : Bool := w &&& r.mask == r.pattern

/-! ## The assembler (30_encoding.md R90) -/

/-- The written form of an instruction. -/
def disassemble : Instr → AsmLine
  | .clearScreen => ⟨.clearScreen, []⟩
  | .ret => ⟨.ret, []⟩
  | .jump nnn => ⟨.jump, [.num nnn.toNat]⟩
  | .call nnn => ⟨.call, [.num nnn.toNat]⟩
  | .skipEqImm x nn => ⟨.skipEqImm, [.reg x.val, .num nn.toNat]⟩
  | .skipNeImm x nn => ⟨.skipNeImm, [.reg x.val, .num nn.toNat]⟩
  | .skipEqReg x y => ⟨.skipEqReg, [.reg x.val, .reg y.val]⟩
  | .loadImm x nn => ⟨.loadImm, [.reg x.val, .num nn.toNat]⟩
  | .addImm x nn => ⟨.addImm, [.reg x.val, .num nn.toNat]⟩
  | .loadReg x y => ⟨.loadReg, [.reg x.val, .reg y.val]⟩
  | .orReg x y => ⟨.orReg, [.reg x.val, .reg y.val]⟩
  | .andReg x y => ⟨.andReg, [.reg x.val, .reg y.val]⟩
  | .xorReg x y => ⟨.xorReg, [.reg x.val, .reg y.val]⟩
  | .addReg x y => ⟨.addReg, [.reg x.val, .reg y.val]⟩
  | .subReg x y => ⟨.subReg, [.reg x.val, .reg y.val]⟩
  | .shr x => ⟨.shr, [.reg x.val]⟩
  | .subn x y => ⟨.subn, [.reg x.val, .reg y.val]⟩
  | .shl x => ⟨.shl, [.reg x.val]⟩
  | .skipNeReg x y => ⟨.skipNeReg, [.reg x.val, .reg y.val]⟩
  | .loadIndex nnn => ⟨.loadIndex, [.num nnn.toNat]⟩
  | .jumpOffset nnn => ⟨.jumpOffset, [.num nnn.toNat]⟩
  | .random x nn => ⟨.random, [.reg x.val, .num nn.toNat]⟩
  | .draw x y n => ⟨.draw, [.reg x.val, .reg y.val, .num n.toNat]⟩
  | .skipKeyDown x => ⟨.skipKeyDown, [.reg x.val]⟩
  | .skipKeyUp x => ⟨.skipKeyUp, [.reg x.val]⟩
  | .loadDelay x => ⟨.loadDelay, [.reg x.val]⟩
  | .waitKey x => ⟨.waitKey, [.reg x.val]⟩
  | .setDelay x => ⟨.setDelay, [.reg x.val]⟩
  | .setSound x => ⟨.setSound, [.reg x.val]⟩
  | .addIndex x => ⟨.addIndex, [.reg x.val]⟩
  | .loadFontAddr x => ⟨.loadFontAddr, [.reg x.val]⟩
  | .storeBcd x => ⟨.storeBcd, [.reg x.val]⟩
  | .storeRegs x => ⟨.storeRegs, [.reg x.val]⟩
  | .loadRegs x => ⟨.loadRegs, [.reg x.val]⟩

/-- A written register number as a register (of a line that passed its checks it is below 16 already). -/
def regOfNat (n : Nat) : RegIdx := Fin.ofNat 16 n

/-- The instruction a name and operands of its kinds stand for. -/
def buildInstr : Mnemonic → List AsmOperand → Option Instr
  | .clearScreen, [] => some .clearScreen
  | .ret, [] => some .ret
  | .jump, [.num nnn] => some (.jump (BitVec.ofNat 12 nnn))
  | .call, [.num nnn] => some (.call (BitVec.ofNat 12 nnn))
  | .skipEqImm, [.reg x, .num nn] => some (.skipEqImm (regOfNat x) (BitVec.ofNat 8 nn))
  | .skipNeImm, [.reg x, .num nn] => some (.skipNeImm (regOfNat x) (BitVec.ofNat 8 nn))
  | .skipEqReg, [.reg x, .reg y] => some (.skipEqReg (regOfNat x) (regOfNat y))
  | .loadImm, [.reg x, .num nn] => some (.loadImm (regOfNat x) (BitVec.ofNat 8 nn))
  | .addImm, [.reg x, .num nn] => some (.addImm (regOfNat x) (BitVec.ofNat 8 nn))
  | .loadReg, [.reg x, .reg y] => some (.loadReg (regOfNat x) (regOfNat y))
  | .orReg, [.reg x, .reg y] => some (.orReg (regOfNat x) (regOfNat y))
  | .andReg, [.reg x, .reg y] => some (.andReg (regOfNat x) (regOfNat y))
  | .xorReg, [.reg x, .reg y] => some (.xorReg (regOfNat x) (regOfNat y))
  | .addReg, [.reg x, .reg y] => some (.addReg (regOfNat x) (regOfNat y))
  | .subReg, [.reg x, .reg y] => some (.subReg (regOfNat x) (regOfNat y))
  | .shr, [.reg x] => some (.shr (regOfNat x))
  | .subn, [.reg x, .reg y] => some (.subn (regOfNat x) (regOfNat y))
  | .shl, [.reg x] => some (.shl (regOfNat x))
  | .skipNeReg, [.reg x, .reg y] => some (.skipNeReg (regOfNat x) (regOfNat y))
  | .loadIndex, [.num nnn] => some (.loadIndex (BitVec.ofNat 12 nnn))
  | .jumpOffset, [.num nnn] => some (.jumpOffset (BitVec.ofNat 12 nnn))
  | .random, [.reg x, .num nn] => some (.random (regOfNat x) (BitVec.ofNat 8 nn))
  | .draw, [.reg x, .reg y, .num n] => some (.draw (regOfNat x) (regOfNat y) (BitVec.ofNat 4 n))
  | .skipKeyDown, [.reg x] => some (.skipKeyDown (regOfNat x))
  | .skipKeyUp, [.reg x] => some (.skipKeyUp (regOfNat x))
  | .loadDelay, [.reg x] => some (.loadDelay (regOfNat x))
  | .waitKey, [.reg x] => some (.waitKey (regOfNat x))
  | .setDelay, [.reg x] => some (.setDelay (regOfNat x))
  | .setSound, [.reg x] => some (.setSound (regOfNat x))
  | .addIndex, [.reg x] => some (.addIndex (regOfNat x))
  | .loadFontAddr, [.reg x] => some (.loadFontAddr (regOfNat x))
  | .storeBcd, [.reg x] => some (.storeBcd (regOfNat x))
  | .storeRegs, [.reg x] => some (.storeRegs (regOfNat x))
  | .loadRegs, [.reg x] => some (.loadRegs (regOfNat x))
  | _, _ => none

/-- The assembler: the instruction a written line stands for, or the first check of WellFormed.lean that refuses it. -/
def assemble (l : AsmLine) : Except AsmProblem Instr :=
  match l.problem with
  | some p => .error p
  | none =>
    match buildInstr l.op l.operands with
    | some i => .ok i
    | none => .error .wrongOperandKind

/-! ## The host's reading of a table word -/

/-- The bytes, in memory order, of an instruction whose bits are `w` as spec/opcode_table.json numbers them; every
bit from `nbits` up is 0. An instruction is one word of 16 bits (30_encoding.md R70). -/
def tableBytes (nbits w : Nat) : List Byte := bytesOfWord (BitVec.ofNat 16 (w % 2 ^ nbits))

/-- The instruction the decoder reads from a table word, or none where it refuses. -/
def decodeTableWord (nbits w : Nat) : Option Instr :=
  match decodeBytes (tableBytes nbits w) with
  | .ok (i, _) => some i
  | .error _ => none

end Sys2Proof
end

