-- ==== Sys2Proof/Machine/State.lean ====
section
/-! DEFINITION. The state of the block, as plain data (10_state.md: "Nothing else is state"), why a step can stop,
and the state at construction. -/

namespace Sys2Proof.Machine

/-- The fault kinds `cycle()` raises, codes 1 to 4 of 60_exceptions.md R220. -/
inductive FaultKind where
  /-- Code 1: the fetch, `draw`, `store-bcd`, `store-regs`, `load-regs`, on an address above 0xFFF (R221). -/
  | outOfBounds
  /-- Code 2: `call` with SP = 16 (R222). -/
  | stackOverflow
  /-- Code 3: `return` with SP = 0 (R223). -/
  | stackUnderflow
  /-- Code 4: the decode of an illegal word (R224). -/
  | unknownOpcode
  deriving DecidableEq, Repr

/-- The whole fault taxonomy of 60_exceptions.md R220, as host operations report it. The machine's step NEVER
answers `Host.Outcome.fault`: the spec gives a fault of `cycle()` an effect, the next state `Halted(f)`, and the step
takes it (log 1; safe, nothing is cut short). -/
inductive Fault where
  /-- Codes 1 to 4, the result of `cycle()`. Raised by `raise` in Machine/Ops.lean, recorded in `RunState.halted`. Safe. -/
  | ofCycle (f : FaultKind)
  /-- Code 5, the result of `load` (R225); the load changes no state and records nothing. Raised by `load` alone. Safe. -/
  | programTooLarge
  deriving DecidableEq, Repr

/-- The fault codes of 60_exceptions.md R220 (decision D27). -/
def Fault.code : Fault → Nat
  | .ofCycle .outOfBounds => 1
  | .ofCycle .stackOverflow => 2
  | .ofCycle .stackUnderflow => 3
  | .ofCycle .unknownOpcode => 4
  | .programTooLarge => 5

/-- Why the model would give an instruction no meaning. -/
inductive Refusal where
  /-- An arm of `exec` not modelled yet. Raised by no arm of this model. Safe: it would only stop a run. -/
  | notModelled (mnemonic : String)
  deriving DecidableEq, Repr

/-- The interpreter's run state (10_state.md R29). -/
inductive RunState where
  | running
  /-- Waiting for a key whose number goes to register `t` (46_keypad.md R203, R204). -/
  | waitingForKey (t : RegIdx)
  /-- Stopped by a fault; terminal for `cycle()` (60_exceptions.md R226 to R228). -/
  | halted (f : FaultKind)
  deriving DecidableEq, Repr

/-- The memory: (address, byte) cells in canonical form (Machine/Ops.lean, `Memory.wf`). An address not listed reads
as its reset content (Machine/Font.lean, `resetByte`; log 3). -/
abbrev Memory := List Host.Cell

/-- The framebuffer, `FB[x][y]` as `fb[x][y]`: 64 columns of 32 pixels (10_state.md R28). -/
abbrev Framebuffer := Vector (Vector Bool 32) 64

/-- The complete state of the block (the tuple at the head of 10_state.md). -/
@[ext]
structure State where
  /-- V0 to VF (R20, R21). -/
  v        : Vector Byte 16
  /-- The index register I (R23). -/
  i        : Word
  /-- The program counter (R24). -/
  pc       : Word
  /-- The call stack's entries (R25). -/
  stack    : Vector Word 16
  /-- The stack pointer SP, 0 to 16: the number of entries in use (R25). -/
  sp       : Fin 17
  /-- The delay timer DT (R26). -/
  dt       : Byte
  /-- The sound timer ST (R26). -/
  st       : Byte
  /-- The keypad latch, true for a key that is down (R27). -/
  keys     : Vector Bool 16
  /-- The framebuffer, true for a pixel that is on (R28). -/
  fb       : Framebuffer
  /-- The memory (20_memory.md R50). -/
  mem      : Memory
  /-- The run state (R29). -/
  runState : RunState
  /-- The number of random bytes taken so far (R31). -/
  rngPos   : Nat
  deriving DecidableEq, Repr

/-- A framebuffer with every pixel off (44_display.md R161). -/
def blankFramebuffer : Framebuffer := Vector.replicate 64 (Vector.replicate 32 false)

/-- The block at construction (70_reset_and_hazards.md R260; table of 10_state.md R34): what a load of the empty
program leaves, with every key up and no random byte taken. No memory cell is listed: the font and zeros are what
unlisted addresses read as. -/
def State.reset : State where
  v        := Vector.replicate 16 0
  i        := 0
  pc       := BitVec.ofNat 16 Config.programBase
  stack    := Vector.replicate 16 0
  sp       := 0
  dt       := 0
  st       := 0
  keys     := Vector.replicate 16 false
  fb       := blankFramebuffer
  mem      := []
  runState := .running
  rngPos   := 0

end Sys2Proof.Machine
end

