-- ==== Sys2Proof/Machine/Font.lean ====
section
/-! DEFINITION. The built-in font (20_memory.md R51 to R53): where it lies, its bytes, the address of a glyph, and with
them what every address holds when nothing has been written to it since the last load (R55). -/

namespace Sys2Proof.Machine

/-- `FONT_BASE` (00_scope.md R7; the spec's decision D3). -/
abbrev fontBase : Nat := 0x000

/-- `FONT_DATA`, glyph by glyph, top row first (20_memory.md R53; the spec's G5). -/
def fontData : List Byte :=
  [0xF0, 0x90, 0x90, 0x90, 0xF0] ++ [0x20, 0x60, 0x20, 0x20, 0x70] ++   -- 0 1
  [0xF0, 0x10, 0xF0, 0x80, 0xF0] ++ [0xF0, 0x10, 0xF0, 0x10, 0xF0] ++   -- 2 3
  [0x90, 0x90, 0xF0, 0x10, 0x10] ++ [0xF0, 0x80, 0xF0, 0x10, 0xF0] ++   -- 4 5
  [0xF0, 0x80, 0xF0, 0x90, 0xF0] ++ [0xF0, 0x10, 0x20, 0x40, 0x40] ++   -- 6 7
  [0xF0, 0x90, 0xF0, 0x90, 0xF0] ++ [0xF0, 0x90, 0xF0, 0x10, 0xF0] ++   -- 8 9
  [0xF0, 0x90, 0xF0, 0x90, 0x90] ++ [0xE0, 0x90, 0xE0, 0x90, 0xE0] ++   -- A B
  [0xF0, 0x80, 0x80, 0x80, 0xF0] ++ [0xE0, 0x90, 0x90, 0x90, 0xE0] ++   -- C D
  [0xF0, 0x80, 0xF0, 0x80, 0xF0] ++ [0xF0, 0x80, 0xF0, 0x80, 0x80]      -- E F

/-- The address of the glyph of digit `k`, `FONT_BASE + 5*k` (20_memory.md R52). -/
def glyphAddress (k : Nat) : Nat := fontBase + 5 * k

/-- What an address holds after a load of the empty program: the font at `FONT_BASE`, 0 everywhere else
(20_memory.md R51, R55). This is what an address not listed in `Memory` reads as. -/
def resetByte (a : Nat) : Byte :=
  if a < fontBase then 0 else fontData.getD (a - fontBase) 0

end Sys2Proof.Machine
end

