-- ==== Sys2Proof/Machine/Ops.lean ====
section
/-! DEFINITION. The named operations over memory, registers, stack, framebuffer, keypad and random source, and the one
operation that takes a fault. The meanings and the cycle are written over these. -/

namespace Sys2Proof.Machine

/-- What a meaning and a step answer. -/
abbrev Result := Host.Outcome State Fault Refusal

/-! ## Memory (20_memory.md) -/

/-- The canonical form: addresses strictly rising and inside the address space, and no cell equal to what its address
reads as when unlisted. Equal memories are then equal lists. -/
abbrev Memory.wf (m : Memory) : Prop :=
  m.Pairwise (fun c d => c.1 < d.1) ∧ ∀ c ∈ m, c.1 < Config.memSize ∧ c.2 ≠ resetByte c.1

/-- `MemRead(a, 1)` of an address in bounds (00_scope.md R10). -/
def Memory.read : Memory → Nat → Byte
  | [], a => resetByte a
  | (a', b) :: m, a => if a = a' then b else Memory.read m a

/-- A cell put in front of a memory, unless the address reads so anyway. -/
def Memory.cons (a : Nat) (b : Byte) (m : Memory) : Memory :=
  if b = resetByte a then m else (a, b) :: m

/-- `MemWrite(a, 1, b)` of an address in bounds (00_scope.md R10), keeping the canonical form. -/
def Memory.write : Memory → Nat → Byte → Memory
  | [], a, b => Memory.cons a b []
  | (a', b') :: m, a, b =>
    if a < a' then Memory.cons a b ((a', b') :: m)
    else if a = a' then Memory.cons a b m
    else (a', b') :: Memory.write m a b

/-- `MemRead(a, 2)`: the big-endian word at `a` (20_memory.md R57). -/
def Memory.readWord (m : Memory) (a : Nat) : Word := wordOfBytes (m.read a) (m.read (a + 1))

/-- The `n` bytes from `a` up, in ascending address order (20_memory.md R59). -/
def Memory.readBytes (m : Memory) (a n : Nat) : List Byte := (List.range n).map fun k => m.read (a + k)

/-- The bytes of a list stored from `a` up, in ascending address order (20_memory.md R59). -/
def Memory.writeBytes : Memory → Nat → List Byte → Memory
  | m, _, [] => m
  | m, a, b :: bs => Memory.writeBytes (m.write a b) (a + 1) bs

/-- Whether an address exists: at most 0xFFF, computed exactly, never wrapped (20_memory.md R56). -/
def inBounds (a : Nat) : Bool := decide (a ≤ Config.lastAddress)

/-! ## Registers, timers, run state: one named update each -/

/-- `V[x]` (00_scope.md R9). -/
def State.readV (s : State) (x : RegIdx) : Byte := s.v[x]

/-- `V[x] <- b`. -/
def State.writeV (s : State) (x : RegIdx) (b : Byte) : State := { s with v := s.v.set x b }

/-- `VF <- flag; V[x] <- b`, in this order, so that with x = 15 the result stays (00_scope.md R12, decision D6). -/
def State.writeFlagThenV (s : State) (x : RegIdx) (flag b : Byte) : State := (s.writeV VF flag).writeV x b

/-- `I <- w`. -/
def State.setI (s : State) (w : Word) : State := { s with i := w }

/-- `pc <- w`. -/
def State.setPc (s : State) (w : Word) : State := { s with pc := w }

/-- `DT <- b`. -/
def State.setDt (s : State) (b : Byte) : State := { s with dt := b }

/-- `ST <- b`. -/
def State.setSt (s : State) (b : Byte) : State := { s with st := b }

/-- `Key[k] <- down` (60_exceptions.md R237). -/
def State.setKey (s : State) (k : KeyIdx) (down : Bool) : State := { s with keys := s.keys.set k down }

/-- The framebuffer replaced. -/
def State.setFb (s : State) (f : Framebuffer) : State := { s with fb := f }

/-- The memory replaced. -/
def State.setMem (s : State) (m : Memory) : State := { s with mem := m }

/-- `RunState <- r`. -/
def State.setRunState (s : State) (r : RunState) : State := { s with runState := r }

/-- `pc <- (pc + 2) mod 65536`: the pre-dispatch advance (30_encoding.md R81), and a skip (41_control_flow.md R100). -/
def State.advance (s : State) : State := s.setPc (s.pc + 2)

/-- A skip taken when its condition holds (41_control_flow.md R100, 46_keypad.md R200). -/
def State.skipIf (s : State) (c : Bool) : State := if c then s.advance else s

/-- V0 to V[x] loaded from memory at `a` up; registers above x stay (43_index_memory.md R146). -/
def loadedRegs (m : Memory) (a : Nat) (x : RegIdx) (v : Vector Byte 16) : Vector Byte 16 :=
  Vector.ofFn fun k : RegIdx => if k ≤ x then m.read (a + k.val) else v[k]

/-- The registers replaced. -/
def State.setV (s : State) (v : Vector Byte 16) : State := { s with v := v }

/-! ## The call stack (10_state.md R25) -/

/-- A push: `Stack[SP] <- w`, then `SP <- SP + 1`; none when SP = 16. -/
def State.push (s : State) (w : Word) : Option State :=
  if h : s.sp.val < 16 then
    some { s with stack := s.stack.set s.sp.val w h, sp := ⟨s.sp.val + 1, by omega⟩ }
  else none

/-- A pop: `SP <- SP - 1`, then the entry `Stack[SP]`, which stays in place; none when SP = 0. -/
def State.pop (s : State) : Option (Word × State) :=
  if h : 0 < s.sp.val then
    some (s.stack[s.sp.val - 1]'(by omega), { s with sp := ⟨s.sp.val - 1, by omega⟩ })
  else none

/-! ## The framebuffer (44_display.md R160) -/

/-- `FB[x][y]`. -/
def pixel (f : Framebuffer) (x : Column) (y : Row) : Bool := f[x][y]

/-- `FB[x][y] <- on`. -/
def setPixel (f : Framebuffer) (x : Column) (y : Row) (on : Bool) : Framebuffer := f.set x (f[x].set y on)

/-! ## The keypad (46_keypad.md) -/

/-- The least key that is down, if any (46_keypad.md R204, decision D13). -/
def firstKeyDown (keys : Vector Bool 16) : Option KeyIdx := (List.finRange 16).find? fun k => keys[k]

/-! ## The random source (60_exceptions.md R240) -/

/-- `NextRandom()`: the next byte of RNG_STREAM, and the state that has taken it. -/
def nextRandom (s : State) : Byte × State := (Config.rngStream s.rngPos, { s with rngPos := s.rngPos + 1 })

/-! ## Taking a fault (60_exceptions.md R226) -/

/-- `raise f` (00_scope.md R11, 60_exceptions.md R226): the run state becomes `Halted(f)`; nothing else is saved or
changed: no handler, no vector, no saved pc. The spec gives this effect, so it is a NEXT state (log 1). There is
no return from a fault: only a successful load leaves Halted (R228; `load` in Machine/HostInterface.lean). -/
def raise (f : FaultKind) (s : State) : Result := .next (s.setRunState (.halted f))

/-- `check(cond, f)` before the effect that leads to `t` (00_scope.md R10, R11): the effect, or the fault with
none of it. -/
def check (cond : Bool) (f : FaultKind) (s t : State) : Result := if cond then .next t else raise f s

end Sys2Proof.Machine
end

