-- ==== Sys2Proof/Machine/Operands.lean ====
section
/-! DEFINITION. The operand forms: what an instruction's fields stand for in a state. Register operands are read by
`State.readV` (Ops.lean) before any write (00_scope.md R12). -/

namespace Sys2Proof.Machine

/-- NNN as an address, zero-extended to 16 bits (30_encoding.md R72). -/
def addressOf (nnn : BitVec 12) : Word := nnn.setWidth 16

/-- A register value zero-extended to 16 bits (30_encoding.md R72). -/
def widen (b : Byte) : Word := b.setWidth 16

/-- The low nibble of a register value: the digit of `load-font-addr` (43_index_memory.md R143). -/
def lowNibble (b : Byte) : Nat := b.toNat % 16

/-- The key a register value names, its low nibble (46_keypad.md R200, decision D12). -/
def keyOf (b : Byte) : KeyIdx := Fin.ofNat 16 (lowNibble b)

/-- The effective address `I + k`, exact, never wrapped (43_index_memory.md R140, 20_memory.md R56). -/
def effectiveAddress (s : State) (k : Nat) : Nat := s.i.toNat + k

/-- `pc <- NNN + V0` in 16 bits, not masked (41_control_flow.md R108, decision D10). -/
def offsetTarget (nnn : BitVec 12) (v0 : Byte) : Word := addressOf nnn + widen v0

/-- The three decimal digits of a value, hundreds first (43_index_memory.md R144). -/
def bcdDigits (b : Byte) : List Byte :=
  [BitVec.ofNat 8 (b.toNat / 100), BitVec.ofNat 8 (b.toNat / 10 % 10), BitVec.ofNat 8 (b.toNat % 10)]

/-- V0 to V[x], the bytes `store-regs` stores (43_index_memory.md R145). -/
def regsUpTo (v : Vector Byte 16) (x : RegIdx) : List Byte := v.toList.take (x.val + 1)

/-- The framebuffer column of sprite column `c` (44_display.md R160: wrap modulo 64). -/
def spriteColumn (vx : Byte) (c : Nat) : Column := Fin.ofNat 64 (vx.toNat + c)

/-- The framebuffer row of sprite row `r` (44_display.md R160: wrap modulo 32). -/
def spriteRow (vy : Byte) (r : Nat) : Row := Fin.ofNat 32 (vy.toNat + r)

/-- The bit of a sprite byte in sprite column `c`, most significant bit leftmost (44_display.md R160). -/
def spriteBit (b : Byte) (c : Nat) : Bool := b.getLsbD (7 - c)

end Sys2Proof.Machine
end

