-- ==== Sys2Proof/Machine/Flags.lean ====
section
/-! DEFINITION. The ALU's results, from a widened intermediate brought back to 8 bits (42_register_alu.md R120), and
every flag computation (R133). A flag is the byte 0 or 1 written to VF. -/

namespace Sys2Proof.Machine

/-- A condition as a flag value. -/
def flagOf (c : Bool) : Byte := if c then 1 else 0

/-- `(a + b) mod 256` (42_register_alu.md R122, R127). -/
def sumByte (a b : Byte) : Byte := BitVec.ofNat 8 (a.toNat + b.toNat)

/-- `(a + 256 - b) mod 256` (42_register_alu.md R128, R130). -/
def diffByte (a b : Byte) : Byte := BitVec.ofNat 8 (a.toNat + 256 - b.toNat)

/-- Carry out of bit 7 (42_register_alu.md R127). -/
def carryFlag (a b : Byte) : Byte := flagOf (decide (a.toNat + b.toNat > 255))

/-- No borrow in `a - b` (42_register_alu.md R128, R130). -/
def noBorrowFlag (a b : Byte) : Byte := flagOf (decide (a.toNat ≥ b.toNat))

/-- `a >> 1` (42_register_alu.md R129). -/
def shiftedRight (a : Byte) : Byte := a >>> 1

/-- The bit a right shift drops, `a & 1` (42_register_alu.md R129). -/
def lowBitFlag (a : Byte) : Byte := a &&& 1

/-- `(a << 1) mod 256` (42_register_alu.md R131). -/
def shiftedLeft (a : Byte) : Byte := a <<< 1

/-- The bit a left shift drops, `(a >> 7) & 1` (42_register_alu.md R131). -/
def highBitFlag (a : Byte) : Byte := (a >>> 7) &&& 1

/-- The collision flag of a blit (44_display.md R162). -/
def collisionFlag (collision : Bool) : Byte := flagOf collision

end Sys2Proof.Machine
end

