-- ==== Sys2Proof/Machine/ControlFlow.lean ====
section
/-! DEFINITION. Control flow (41_control_flow.md). pc is already a + 2 when a meaning runs (30_encoding.md R81). -/

namespace Sys2Proof.Machine

/-- `return` (R101): pop into pc; `StackUnderflow` when SP = 0. -/
def execRet (s : State) : Result :=
  match s.pop with
  | some (w, t) => .next (t.setPc w)
  | none => raise .stackUnderflow s

/-- `jump NNN` (R102). -/
def execJump (nnn : BitVec 12) (s : State) : Result := .next (s.setPc (addressOf nnn))

/-- `call NNN` (R103): push the advanced pc, then jump; `StackOverflow` when SP = 16. -/
def execCall (nnn : BitVec 12) (s : State) : Result :=
  match s.push s.pc with
  | some t => .next (t.setPc (addressOf nnn))
  | none => raise .stackOverflow s

/-- `skip-eq-imm X, NN` (R104). -/
def execSkipEqImm (x : RegIdx) (nn : Byte) (s : State) : Result := .next (s.skipIf (s.readV x == nn))

/-- `skip-ne-imm X, NN` (R105). -/
def execSkipNeImm (x : RegIdx) (nn : Byte) (s : State) : Result := .next (s.skipIf (s.readV x != nn))

/-- `skip-eq-reg X, Y` (R106). -/
def execSkipEqReg (x y : RegIdx) (s : State) : Result := .next (s.skipIf (s.readV x == s.readV y))

/-- `skip-ne-reg X, Y` (R107). -/
def execSkipNeReg (x y : RegIdx) (s : State) : Result := .next (s.skipIf (s.readV x != s.readV y))

/-- `jump-offset NNN` (R108): the offset register is always V0. -/
def execJumpOffset (nnn : BitVec 12) (s : State) : Result := .next (s.setPc (offsetTarget nnn (s.readV 0)))

end Sys2Proof.Machine
end

