-- ==== Sys2Proof/Machine/Display.lean ====
section
/-! DEFINITION. The sprite rasterizer (44_display.md). -/

namespace Sys2Proof.Machine

/-- The framebuffer pixels on which the set bits of row byte `b` of sprite row `r` land, columns in ascending order
(R160, R162). -/
def rowPixels (vx vy : Byte) (r : Nat) (b : Byte) : List (Column × Row) :=
  ((List.range 8).filter (spriteBit b)).map fun c => (spriteColumn vx c, spriteRow vy r)

/-- The framebuffer pixels on which the set bits of a sprite land, in the order R162 visits them; the list's first
byte is sprite row `r`. -/
def spritePixels (vx vy : Byte) : Nat → List Byte → List (Column × Row)
  | _, [] => []
  | r, b :: bs => rowPixels vx vy r b ++ spritePixels vx vy (r + 1) bs

/-- One visited pixel: XOR with 1, and a collision if it was on (R162). -/
def blitPixel (acc : Framebuffer × Bool) (p : Column × Row) : Framebuffer × Bool :=
  (setPixel acc.1 p.1 p.2 (!pixel acc.1 p.1 p.2), acc.2 || pixel acc.1 p.1 p.2)

/-- The blit of a list of pixels: the framebuffer after it, and whether any pixel went from on to off (R162). -/
def blit (f : Framebuffer) (ps : List (Column × Row)) : Framebuffer × Bool := ps.foldl blitPixel (f, false)

/-- The blit of `draw X, Y, N` in a state: coordinates Vx and Vy, N sprite bytes from I up (R162). -/
def drawBlit (x y : RegIdx) (n : BitVec 4) (s : State) : Framebuffer × Bool :=
  blit s.fb (spritePixels (s.readV x) (s.readV y) 0 (s.mem.readBytes (effectiveAddress s 0) n.toNat))

/-- Whether the N sprite bytes lie in bounds; N = 0 reads no byte (R162, decision D14). -/
def spriteInBounds (n : BitVec 4) (s : State) : Bool :=
  n == 0 || inBounds (effectiveAddress s (n.toNat - 1))

/-- `clear-screen` (R161). -/
def execClearScreen (s : State) : Result := .next (s.setFb blankFramebuffer)

/-- `draw X, Y, N` (R162): the blit, then VF = collision; `OutOfBounds` before any pixel changes (decision D7). -/
def execDraw (x y : RegIdx) (n : BitVec 4) (s : State) : Result :=
  check (spriteInBounds n s) .outOfBounds s
    ((s.setFb (drawBlit x y n s).1).writeV VF (collisionFlag (drawBlit x y n s).2))

end Sys2Proof.Machine
end

