-- ==== Sys2Proof/Machine/IndexMemory.lean ====
section
/-! DEFINITION. The index register and memory (43_index_memory.md). Every bound is checked before the first write, and
I is changed by no access (R140, decision D9). -/

namespace Sys2Proof.Machine

/-- `load-index NNN` (R141). -/
def execLoadIndex (nnn : BitVec 12) (s : State) : Result := .next (s.setI (addressOf nnn))

/-- `add-index X` (R142): modulo 65536, VF not written (decision D11). -/
def execAddIndex (x : RegIdx) (s : State) : Result := .next (s.setI (s.i + widen (s.readV x)))

/-- `load-font-addr X` (R143): the glyph of the low nibble of Vx. -/
def execLoadFontAddr (x : RegIdx) (s : State) : Result :=
  .next (s.setI (BitVec.ofNat 16 (glyphAddress (lowNibble (s.readV x)))))

/-- `store-bcd X` (R144): hundreds, tens and ones of Vx at I, I + 1, I + 2. -/
def execStoreBcd (x : RegIdx) (s : State) : Result :=
  check (inBounds (effectiveAddress s 2)) .outOfBounds s
    (s.setMem (s.mem.writeBytes (effectiveAddress s 0) (bcdDigits (s.readV x))))

/-- `store-regs X` (R145): V0 to Vx at I up. -/
def execStoreRegs (x : RegIdx) (s : State) : Result :=
  check (inBounds (effectiveAddress s x.val)) .outOfBounds s
    (s.setMem (s.mem.writeBytes (effectiveAddress s 0) (regsUpTo s.v x)))

/-- `load-regs X` (R146): V0 to Vx from I up. -/
def execLoadRegs (x : RegIdx) (s : State) : Result :=
  check (inBounds (effectiveAddress s x.val)) .outOfBounds s
    (s.setV (loadedRegs s.mem (effectiveAddress s 0) x s.v))

end Sys2Proof.Machine
end

