-- ==== Sys2Proof/Machine/Keypad.lean ====
section
/-! DEFINITION. The keypad instructions and the waiting cycle (46_keypad.md). None can fault. -/

namespace Sys2Proof.Machine

/-- `skip-key-down X` (R201). -/
def execSkipKeyDown (x : RegIdx) (s : State) : Result := .next (s.skipIf s.keys[keyOf (s.readV x)])

/-- `skip-key-up X` (R202). -/
def execSkipKeyUp (x : RegIdx) (s : State) : Result := .next (s.skipIf (!s.keys[keyOf (s.readV x)]))

/-- `wait-key X` (R203): only enters the waiting state (decision D13). -/
def execWaitKey (x : RegIdx) (s : State) : Result := .next (s.setRunState (.waitingForKey x))

/-- A `cycle()` in `WaitingForKey(t)` (R204): the least key that is down goes to V[t] and the block runs again; with
none down nothing changes. No fetch, pc unchanged. -/
def cycleWaiting (t : RegIdx) (s : State) : Result :=
  match firstKeyDown s.keys with
  | some k => .next ((s.writeV t (BitVec.ofNat 8 k.val)).setRunState .running)
  | none => .next s

end Sys2Proof.Machine
end

