-- ==== Sys2Proof/Machine/RegisterAlu.lean ====
section
/-! DEFINITION. Register loads and ALU (42_register_alu.md). No instruction of the family can fault (R120). -/

namespace Sys2Proof.Machine

/-- `load-imm X, NN` (R121). -/
def execLoadImm (x : RegIdx) (nn : Byte) (s : State) : Result := .next (s.writeV x nn)

/-- `add-imm X, NN` (R122): wraps, writes no flag. -/
def execAddImm (x : RegIdx) (nn : Byte) (s : State) : Result := .next (s.writeV x (sumByte (s.readV x) nn))

/-- `load-reg X, Y` (R123). -/
def execLoadReg (x y : RegIdx) (s : State) : Result := .next (s.writeV x (s.readV y))

/-- `or X, Y` (R124): VF is not written (decision D26). -/
def execOrReg (x y : RegIdx) (s : State) : Result := .next (s.writeV x (s.readV x ||| s.readV y))

/-- `and X, Y` (R125): VF is not written (decision D26). -/
def execAndReg (x y : RegIdx) (s : State) : Result := .next (s.writeV x (s.readV x &&& s.readV y))

/-- `xor X, Y` (R126): VF is not written (decision D26). -/
def execXorReg (x y : RegIdx) (s : State) : Result := .next (s.writeV x (s.readV x ^^^ s.readV y))

/-- `add-reg X, Y` (R127): VF = carry, then the sum. -/
def execAddReg (x y : RegIdx) (s : State) : Result :=
  .next (s.writeFlagThenV x (carryFlag (s.readV x) (s.readV y)) (sumByte (s.readV x) (s.readV y)))

/-- `sub-reg X, Y` (R128): VF = no borrow, then Vx - Vy. -/
def execSubReg (x y : RegIdx) (s : State) : Result :=
  .next (s.writeFlagThenV x (noBorrowFlag (s.readV x) (s.readV y)) (diffByte (s.readV x) (s.readV y)))

/-- `shr X` (R129): VF = bit 0 of Vx, then Vx >> 1; Vy is never read. -/
def execShr (x : RegIdx) (s : State) : Result :=
  .next (s.writeFlagThenV x (lowBitFlag (s.readV x)) (shiftedRight (s.readV x)))

/-- `subn X, Y` (R130): VF = no borrow, then Vy - Vx. -/
def execSubn (x y : RegIdx) (s : State) : Result :=
  .next (s.writeFlagThenV x (noBorrowFlag (s.readV y) (s.readV x)) (diffByte (s.readV y) (s.readV x)))

/-- `shl X` (R131): VF = bit 7 of Vx, then Vx << 1; Vy is never read. -/
def execShl (x : RegIdx) (s : State) : Result :=
  .next (s.writeFlagThenV x (highBitFlag (s.readV x)) (shiftedLeft (s.readV x)))

end Sys2Proof.Machine
end

