-- ==== Sys2Proof/Machine/TimersRandom.lean ====
section
/-! DEFINITION. Timers and random (45_timers_random.md). No instruction of the family can fault. -/

namespace Sys2Proof.Machine

/-- `random X, NN` (R181): takes one byte of the stream, also when NN = 0. -/
def execRandom (x : RegIdx) (nn : Byte) (s : State) : Result :=
  .next ((nextRandom s).2.writeV x ((nextRandom s).1 &&& nn))

/-- `load-delay X` (R182). -/
def execLoadDelay (x : RegIdx) (s : State) : Result := .next (s.writeV x s.dt)

/-- `set-delay X` (R183). -/
def execSetDelay (x : RegIdx) (s : State) : Result := .next (s.setDt (s.readV x))

/-- `set-sound X` (R184). -/
def execSetSound (x : RegIdx) (s : State) : Result := .next (s.setSt (s.readV x))

end Sys2Proof.Machine
end

