-- ==== Sys2Proof/Machine/Cycle.lean ====
section
/-! DEFINITION. One call of `cycle()`: fetch, advance, decode, execute, by run state (30_encoding.md R79 to R82). -/

namespace Sys2Proof.Machine

/-- The word at pc (30_encoding.md R80). -/
def fetchWord (s : State) : Word := s.mem.readWord s.pc.toNat

/-- Whether the fetch is in bounds: pc + 1 at most 0xFFF (30_encoding.md R80). -/
def fetchInBounds (s : State) : Bool := inBounds (s.pc.toNat + 1)

/-- The Running-state step (30_encoding.md R82). A fetch fault leaves pc; every later fault leaves it advanced
(decision D8). -/
def cycleRunning (s : State) : Result :=
  if fetchInBounds s then
    match decode (fetchWord s) with
    | .ok i => exec i s.advance
    | .error _ => raise .unknownOpcode s.advance
  else raise .outOfBounds s

/-- One `cycle()` (30_encoding.md R79): in Halted nothing changes (60_exceptions.md R227). -/
def cycle (s : State) : Result :=
  match s.runState with
  | .running => cycleRunning s
  | .waitingForKey t => cycleWaiting t s
  | .halted _ => .next s

/-- The address from which a fetch can be made: pc, or PROGRAM_BASE where no word can be fetched at pc. -/
def fetchableAddress (s : State) : Word :=
  if fetchInBounds s then s.pc else BitVec.ofNat 16 Config.programBase

/-- A state that fetches the given bytes next: Running, at a fetchable pc, with the bytes stored there. -/
def placeAtFetch (s : State) (bytes : List Byte) : State :=
  ((s.setRunState .running).setPc (fetchableAddress s)).setMem
    (s.mem.writeBytes (fetchableAddress s).toNat bytes)

end Sys2Proof.Machine
end

