-- ==== Sys2Proof/Machine/Step.lean ====
section
/-! DEFINITION. The step of the machine, and the placing of one instruction where the step fetches. -/

namespace Sys2Proof.Machine

/-- One step: one `cycle()` (30_encoding.md R79). -/
def step (s : State) : Host.Outcome State Fault Refusal := cycle s

/-- The state with a table word where the next step fetches (log 4): the two bytes at pc; the run state Running, since
a waiting or halted block fetches nothing; and pc at PROGRAM_BASE where no word can be fetched at pc. -/
def State.withFetchWord (s : State) (nbits w : Nat) : State := placeAtFetch s (tableBytes nbits w)

end Sys2Proof.Machine
end

