-- ==== Sys2Proof/Machine/HostInterface.lean ====
section
/-! DEFINITION. The block's interface: the host's atomic operations (60_exceptions.md R245), in any order the host
chooses (R246). -/

namespace Sys2Proof.Machine

/-- What an operation gives back (60_exceptions.md R245). -/
inductive HostResult where
  | none
  | ok
  | fault (f : Fault)
  | framebuffer (f : Framebuffer)
  | sound (on : Bool)
  deriving DecidableEq, Repr

/-- The operations of 60_exceptions.md R245; `setKeys` is `set_key`'s whole-vector form (R237). -/
inductive HostOp where
  | load (bytes : List Byte)
  | cycle
  | tickTimers
  | setKey (k : KeyIdx) (down : Bool)
  | setKeys (keys : Vector Bool 16)
  | readFramebuffer
  | readSound
  deriving DecidableEq, Repr

/-- The memory a load leaves (20_memory.md R55): cleared, the font written (both are what unlisted addresses read as),
then the program bytes at PROGRAM_BASE. -/
def loadMemory (bytes : List Byte) : Memory := Memory.writeBytes [] Config.programBase bytes

/-- Whether a program fits (20_memory.md R55). -/
def programFits (bytes : List Byte) : Bool := decide (Config.programBase + bytes.length ≤ Config.memSize)

/-- The state after a successful load (70_reset_and_hazards.md R261): everything but the keypad and RngPos is reset.
The block's only reset, and the only way out of Halted (60_exceptions.md R228). -/
def loaded (bytes : List Byte) (s : State) : State :=
  { s with
    mem := loadMemory bytes
    v := Vector.replicate 16 0
    i := 0
    pc := BitVec.ofNat 16 Config.programBase
    sp := 0
    stack := Vector.replicate 16 0
    dt := 0
    st := 0
    fb := blankFramebuffer
    runState := .running }

/-- `load(bytes)` (70_reset_and_hazards.md R261): the size check first, and then nothing or all of it. -/
def load (bytes : List Byte) (s : State) : State × HostResult :=
  if programFits bytes then (loaded bytes s, .ok) else (s, .fault .programTooLarge)

/-- A timer's tick: minus 1 if nonzero (60_exceptions.md R235). -/
def tickByte (b : Byte) : Byte := BitVec.ofNat 8 (b.toNat - 1)

/-- `tick_timers()` (60_exceptions.md R235), in every run state. -/
def tickTimers (s : State) : State := (s.setDt (tickByte s.dt)).setSt (tickByte s.st)

/-- The sound output, `ST > 0` (10_state.md R32). -/
def soundOn (s : State) : Bool := decide (0 < s.st.toNat)

/-- What `cycle()` returns, read off the state it leaves: the fault of a halted state, else Ok (30_encoding.md R79,
60_exceptions.md R226, R227, R245). -/
def cycleResult (t : State) : HostResult :=
  match t.runState with
  | .halted f => .fault (.ofCycle f)
  | .running => .ok
  | .waitingForKey _ => .ok

/-- One host operation: the state after it and what it gives back (60_exceptions.md R245). -/
def perform (op : HostOp) (s : State) : Host.Outcome (State × HostResult) Fault Refusal :=
  match op with
  | .load bytes => .next (load bytes s)
  | .cycle =>
    match step s with
    | .next t => .next (t, cycleResult t)
    | .fault f => .fault f
    | .refused r => .refused r
  | .tickTimers => .next (tickTimers s, .none)
  | .setKey k down => .next (s.setKey k down, .none)
  | .setKeys keys => .next ({ s with keys := keys }, .none)
  | .readFramebuffer => .next (s, .framebuffer s.fb)
  | .readSound => .next (s, .sound (soundOn s))

/-- A schedule of host operations, in order, with what each gave back (60_exceptions.md R246). -/
def performAll : List HostOp → State → Host.Outcome (State × List HostResult) Fault Refusal
  | [], s => .next (s, [])
  | op :: ops, s =>
    match perform op s with
    | .fault f => .fault f
    | .refused r => .refused r
    | .next (t, r) =>
      match performAll ops t with
      | .next (u, rs) => .next (u, r :: rs)
      | .fault f => .fault f
      | .refused q => .refused q

end Sys2Proof.Machine
end

