-- ==== Sys2Proof/Safety.lean ====
section
/-! DEFINITION. The terms claims use: the invariant of the block, what an instruction may touch, the end of a run. -/

namespace Sys2Proof.Machine

/-- The invariant of the block: the memory is in its canonical form (the model's choice of form, log 3), pc is at most
0x10FE (10_state.md R24), and no entry of the call stack, stale ones included, is above 0x1000 (41_control_flow.md
R101). -/
structure State.Inv (s : State) : Prop where
  memory : s.mem.wf
  pcBound : s.pc.toNat ≤ 0x10FE
  stackBound : ∀ k : Fin 16, s.stack[k].toNat ≤ 0x1000

/-- The pieces of state, to name which of them an operation may change. -/
inductive Part where
  | v | i | pc | stack | sp | dt | st | keys | fb | mem | runState | rngPos
  deriving DecidableEq, Repr

/-- `t` differs from `s` at most in the named parts. Memory is compared byte by byte, by reading. -/
structure SameExcept (parts : List Part) (s t : State) : Prop where
  v : Part.v ∉ parts → t.v = s.v
  i : Part.i ∉ parts → t.i = s.i
  pc : Part.pc ∉ parts → t.pc = s.pc
  stack : Part.stack ∉ parts → t.stack = s.stack
  sp : Part.sp ∉ parts → t.sp = s.sp
  dt : Part.dt ∉ parts → t.dt = s.dt
  st : Part.st ∉ parts → t.st = s.st
  keys : Part.keys ∉ parts → t.keys = s.keys
  fb : Part.fb ∉ parts → t.fb = s.fb
  mem : Part.mem ∉ parts → ∀ a, t.mem.read a = s.mem.read a
  runState : Part.runState ∉ parts → t.runState = s.runState
  rngPos : Part.rngPos ∉ parts → t.rngPos = s.rngPos

/-- Every V register but those named is as before. -/
def RegsExcept (regs : List RegIdx) (s t : State) : Prop := ∀ r : RegIdx, r ∉ regs → t.v[r] = s.v[r]

/-- Every byte of memory outside the `len` bytes from `a` up reads as before. -/
def MemExcept (a len : Nat) (s t : State) : Prop :=
  ∀ b, (b < a ∨ a + len ≤ b) → t.mem.read b = s.mem.read b

/-- The V registers an instruction writes in its own cycle (the table of 10_state.md R22); `wait-key` writes its
register later, in the waiting cycle that sees a key (46_keypad.md R204). -/
def writesV : Instr → List RegIdx
  | .clearScreen => []
  | .ret => []
  | .jump _ => []
  | .call _ => []
  | .skipEqImm _ _ => []
  | .skipNeImm _ _ => []
  | .skipEqReg _ _ => []
  | .loadImm x _ => [x]
  | .addImm x _ => [x]
  | .loadReg x _ => [x]
  | .orReg x _ => [x]
  | .andReg x _ => [x]
  | .xorReg x _ => [x]
  | .addReg x _ => [VF, x]
  | .subReg x _ => [VF, x]
  | .shr x => [VF, x]
  | .subn x _ => [VF, x]
  | .shl x => [VF, x]
  | .skipNeReg _ _ => []
  | .loadIndex _ => []
  | .jumpOffset _ => []
  | .random x _ => [x]
  | .draw _ _ _ => [VF]
  | .skipKeyDown _ => []
  | .skipKeyUp _ => []
  | .loadDelay x => [x]
  | .waitKey _ => []
  | .setDelay _ => []
  | .setSound _ => []
  | .addIndex _ => []
  | .loadFontAddr _ => []
  | .storeBcd _ => []
  | .storeRegs _ => []
  | .loadRegs x => (List.finRange 16).filter (· ≤ x)

/-- Some set bit of the N-row sprite at I, drawn at (Vx, Vy), lands on column `cx`, row `ry`: sprite column c and row r
land at ((Vx + c) mod 64, (Vy + r) mod 32), most significant bit leftmost (44_display.md R160). -/
def SpriteCovers (s : State) (x y : RegIdx) (n : BitVec 4) (cx : Column) (ry : Row) : Prop :=
  ∃ r < n.toNat, ∃ c < 8, (s.mem.read (s.i.toNat + r)).getLsbD (7 - c) = true ∧
    cx.val = (s.v[x].toNat + c) % 64 ∧ ry.val = (s.v[y].toNat + r) % 32

/-- Two states that differ only in stale stack entries, those at SP and above. -/
def EqUpToStaleStack (s t : State) : Prop :=
  t = { s with stack := t.stack } ∧ ∀ k : Fin 16, k.val < s.sp.val → t.stack[k] = s.stack[k]

/-- A run that has ended in Halted (70_reset_and_hazards.md R267). -/
def State.isHalted (s : State) : Prop := ∃ f, s.runState = .halted f

/-- A self-loop: Running, with `jump pc` at a pc of at most 0xFFE (70_reset_and_hazards.md R267). -/
def State.isSelfLoop (s : State) : Prop :=
  s.runState = .running ∧ s.pc.toNat ≤ 0xFFE ∧ fetchWord s = 0x1000 ||| s.pc

/-- The end of a run: one of the two quiescent shapes (70_reset_and_hazards.md R267). -/
def State.runEnded (s : State) : Prop := s.isHalted ∨ s.isSelfLoop

/-- A safe step: the block goes on without a fault (60_exceptions.md R226). -/
def SafeStep (s : State) : Prop := ∃ t, step s = .next t ∧ ¬ t.isHalted

end Sys2Proof.Machine
end

