-- ==== Sys2Proof/Certificates/Slice0/Obligations.lean ====
section
/-! DEFINITION. The statements for the provers. Each docstring names the rule of spec/ it formalises. Where a statement
rests on a choice the spec marks as its own decision (D<n> of 92_eei_decisions.md) or general knowledge (G<n>), or on a
choice of the model (log <n>), the docstring says so. `exec` runs in a state whose pc is already advanced. -/

open Sys2Proof Sys2Proof.Machine

/-! ## Encoding and decoding -/

/-- Words written out from the patterns of 30_encoding.md R75, at least one of each family, decode to the instructions
of the spec's own examples (patterns: D1, G3). -/
def Obligations.SampleWordsDecode : Prop :=
  decode 0x00E0 = .ok .clearScreen ∧ decode 0x00EE = .ok .ret ∧ decode 0x1234 = .ok (.jump 0x234) ∧
  decode 0x2210 = .ok (.call 0x210) ∧ decode 0x3342 = .ok (.skipEqImm 3 0x42) ∧
  decode 0x9120 = .ok (.skipNeReg 1 2) ∧ decode 0x7220 = .ok (.addImm 2 0x20) ∧
  decode 0x8127 = .ok (.subn 1 2) ∧ decode 0x840E = .ok (.shl 4) ∧ decode 0xA300 = .ok (.loadIndex 0x300) ∧
  decode 0xF265 = .ok (.loadRegs 2) ∧ decode 0xD125 = .ok (.draw 1 2 5) ∧ decode 0xC30F = .ok (.random 3 0x0F) ∧
  decode 0xF618 = .ok (.setSound 6) ∧ decode 0xE2A1 = .ok (.skipKeyUp 2) ∧ decode 0xF40A = .ok (.waitKey 4) ∧
  decode 0x0123 = .error .unknownOpcode ∧ decode 0x5121 = .error .unknownOpcode

/-- Every instruction, with every operand at every value of its field, is what its encoded word decodes to
(30_encoding.md R72 to R75, R90). -/
def Obligations.DecodeOfEncode : Prop :=
  ∀ i : Instr, decode (encode i) = .ok i

/-- A legal word is the encoding of the instruction it decodes to; for `shr` and `shl`, whose Y field is ignored,
with Y put to 0 (30_encoding.md R73, R75, R90). That `shr` and `shl` hold no Y is the model's reading (log 9). -/
def Obligations.EncodeOfDecode : Prop :=
  ∀ (w : Word) (i : Instr), decode w = .ok i →
    ((∀ x, i ≠ .shr x ∧ i ≠ .shl x) → encode i = w) ∧
    ((∃ x, i = .shr x ∨ i = .shl x) → encode i = w &&& 0xFF0F)

/-- A word decodes to an instruction of a given name exactly when it matches that name's row of the opcode table
under the row's mask, and no word matches two rows (30_encoding.md R75). -/
def Obligations.DecodeAgreesWithTable : Prop :=
  (∀ (w : Word) (m : Mnemonic), m.row.hits w = true ↔ ∃ i, decode w = .ok i ∧ i.mnemonic = m) ∧
  (∀ (w : Word) (m m' : Mnemonic), m.row.hits w = true → m'.row.hits w = true → m = m')

/-- The illegal words are exactly those of the last column of the class map (30_encoding.md R76, R77; strictness of
classes 0, 5 and 9: D4). -/
def Obligations.IllegalWordsExactly : Prop :=
  ∀ w : Word, decode w = .error .unknownOpcode ↔
    (fieldC w = 0x0 ∧ w ≠ 0x00E0 ∧ w ≠ 0x00EE) ∨
    (fieldC w = 0x5 ∧ fieldN w ≠ 0) ∨
    (fieldC w = 0x8 ∧ fieldN w ∈ [0x8, 0x9, 0xA, 0xB, 0xC, 0xD, 0xF]) ∨
    (fieldC w = 0x9 ∧ fieldN w ≠ 0) ∨
    (fieldC w = 0xE ∧ fieldNN w ∉ [0x9E, 0xA1]) ∨
    (fieldC w = 0xF ∧ fieldNN w ∉ [0x07, 0x0A, 0x15, 0x18, 0x1E, 0x29, 0x33, 0x55, 0x65])

/-- The assembler: every instruction's written form is well formed and assembles back to it, and every well-formed
line assembles to an instruction whose written form it is (names, operands and ranges: 30_encoding.md R90, D25). A line is
a name and a list of operands, with the characters and the spelling of numbers left out: that is the model's choice (log
11), and the second clause holds because of it, since R90 lets one number be spelled in hexadecimal or in decimal. -/
def Obligations.AssemblerRoundTrip : Prop :=
  (∀ i : Instr, (disassemble i).wellFormed = true ∧ assemble (disassemble i) = .ok i) ∧
  (∀ l : AsmLine, l.wellFormed = true → ∃ i, assemble l = .ok i ∧ disassemble i = l)

/-! ## The cycle -/

/-- A step runs the decoded instruction: Running, both bytes at pc in bounds, and the big-endian word there an
instruction, the step is that instruction executed with pc advanced by 2 (30_encoding.md R80 to R82, 20_memory.md R57). -/
def Obligations.StepRunsDecodedInstruction : Prop :=
  ∀ (s : State) (i : Instr), s.runState = .running → s.pc.toNat + 1 ≤ 0xFFF →
    decode (BitVec.ofNat 16 ((s.mem.read s.pc.toNat).toNat * 256 + (s.mem.read (s.pc.toNat + 1)).toNat)) = .ok i →
    step s = exec i { s with pc := s.pc + 2 }

/-- A fetch with pc + 1 above 0xFFF faults OutOfBounds, whatever the bytes there, and leaves pc; an illegal word in bounds
faults UnknownOpcode with pc advanced by 2; nothing else changes (30_encoding.md R80 to R82, 60_exceptions.md R224, R229;
pc after the faults: D8). -/
def Obligations.FetchAndDecodeFaults : Prop :=
  ∀ s : State, s.runState = .running →
    (0xFFF < s.pc.toNat + 1 → step s = .next { s with runState := .halted .outOfBounds }) ∧
    (s.pc.toNat + 1 ≤ 0xFFF →
      decode (BitVec.ofNat 16 ((s.mem.read s.pc.toNat).toNat * 256 + (s.mem.read (s.pc.toNat + 1)).toNat)) =
        .error .unknownOpcode →
      step s = .next { s with pc := s.pc + 2, runState := .halted .unknownOpcode })

/-- In Halted(f) a cycle returns f again and changes nothing (60_exceptions.md R227, 30_encoding.md R79). That Halted is a
next state (log 1), and that the result is read off the state after the cycle (log 7), are the model's. -/
def Obligations.HaltedCycleReturnsSameFault : Prop :=
  ∀ (s : State) (f : FaultKind), s.runState = .halted f →
    perform .cycle s = .next (s, .fault (.ofCycle f))

/-- The waiting cycle: with a key down, the least one's number goes to the target register and the block runs; with
none down nothing changes. No fetch, pc unchanged (46_keypad.md R204; the least key and the cycle doing only that: D13). -/
def Obligations.WaitingCycle : Prop :=
  ∀ (s : State) (t : RegIdx), s.runState = .waitingForKey t →
    (∀ k : KeyIdx, s.keys[k] = true → (∀ j : KeyIdx, j < k → s.keys[j] = false) →
      ∃ u, step s = .next u ∧ u.v[t].toNat = k.val ∧ RegsExcept [t] s u ∧ u.runState = .running ∧
        SameExcept [.v, .runState] s u) ∧
    ((∀ k : KeyIdx, s.keys[k] = false) → step s = .next s)

/-- Every step, every execution and every host operation answers a next state: no stop and no refusal anywhere. That a
fault of `cycle()` is a next state (Halted) and not a stop is the model's reading (log 1) of 60_exceptions.md R226. -/
def Obligations.EveryStepAnswersNext : Prop :=
  (∀ s : State, ∃ t, step s = .next t) ∧ (∀ (i : Instr) (s : State), ∃ t, exec i s = .next t) ∧
  (∀ (op : HostOp) (s : State), ∃ t r, perform op s = .next (t, r))

/-- A faulting cycle is precise: it changes the run state and pc alone, and pc stays for a fetch fault and is advanced
by 2 for every other fault (60_exceptions.md R226, 00_scope.md R11; D7, D8). That a fault is a next state is the model's
reading (log 1). -/
def Obligations.FaultsArePrecise : Prop :=
  ∀ (s t : State) (f : FaultKind), s.runState = .running → step s = .next t → t.runState = .halted f →
    SameExcept [.pc, .runState] s t ∧
    t.pc = if s.pc.toNat + 1 ≤ 0xFFF then s.pc + 2 else s.pc

/-- OutOfBounds is raised by a running cycle in exactly the cases listed, each before any write of the instruction
(60_exceptions.md R221). -/
def Obligations.OutOfBoundsExactly : Prop :=
  ∀ s t : State, s.runState = .running → step s = .next t →
    (t.runState = .halted .outOfBounds ↔
      0xFFF < s.pc.toNat + 1 ∨
      (s.pc.toNat + 1 ≤ 0xFFF ∧
        ((∃ x y n, decode (fetchWord s) = .ok (.draw x y n) ∧ 0 < n.toNat ∧ 0xFFF < s.i.toNat + n.toNat - 1) ∨
         (∃ x, decode (fetchWord s) = .ok (.storeBcd x) ∧ 0xFFF < s.i.toNat + 2) ∨
         (∃ x, decode (fetchWord s) = .ok (.storeRegs x) ∧ 0xFFF < s.i.toNat + x.val) ∨
         (∃ x, decode (fetchWord s) = .ok (.loadRegs x) ∧ 0xFFF < s.i.toNat + x.val)))) ∧
    (t.runState = .halted .outOfBounds → SameExcept [.pc, .runState] s t)

/-- `call` raises StackOverflow exactly when SP = 16, and `return` StackUnderflow exactly when SP = 0; the run state
is then all that `exec` changes (60_exceptions.md R222, R223). -/
def Obligations.StackFaultsExactly : Prop :=
  (∀ (nnn : BitVec 12) (s : State),
    exec (.call nnn) s = .next { s with runState := .halted .stackOverflow } ↔ s.sp.val = 16) ∧
  (∀ s : State, exec .ret s = .next { s with runState := .halted .stackUnderflow } ↔ s.sp.val = 0)

/-! ## Control flow -/

/-- `jump NNN` sets pc to NNN and changes nothing else (41_control_flow.md R102). -/
def Obligations.JumpSetsPc : Prop :=
  ∀ (nnn : BitVec 12) (s : State), ∃ t, exec (.jump nnn) s = .next t ∧ t.pc.toNat = nnn.toNat ∧ SameExcept [.pc] s t

/-- `jump-offset NNN` sets pc to NNN + V0, with no wrap and no mask, and changes nothing else (41_control_flow.md
R108; not masked: D10). -/
def Obligations.JumpOffsetSetsPc : Prop :=
  ∀ (nnn : BitVec 12) (s : State), ∃ t, exec (.jumpOffset nnn) s = .next t ∧
    t.pc.toNat = nnn.toNat + s.v[(0 : RegIdx)].toNat ∧ SameExcept [.pc] s t

/-- `call NNN` with SP < 16 pushes pc (a + 2), adds 1 to SP and jumps; the other entries stay. With SP = 16 it faults
and changes nothing else (41_control_flow.md R103; that the pushed value is the advanced pc the spec derives). -/
def Obligations.CallPushesAndJumps : Prop :=
  ∀ (nnn : BitVec 12) (s : State),
    (s.sp.val < 16 → ∃ t, exec (.call nnn) s = .next t ∧ t.pc.toNat = nnn.toNat ∧ t.sp.val = s.sp.val + 1 ∧
      (∀ k : Fin 16, t.stack[k] = if k.val = s.sp.val then s.pc else s.stack[k]) ∧
      SameExcept [.pc, .sp, .stack] s t) ∧
    (s.sp.val = 16 → exec (.call nnn) s = .next { s with runState := .halted .stackOverflow })

/-- `return` with SP > 0 pops the top entry into pc and changes nothing else, the stale entry included; with SP = 0 it
faults before any write (41_control_flow.md R101). -/
def Obligations.ReturnPopsIntoPc : Prop :=
  ∀ s : State,
    (0 < s.sp.val → ∃ t, exec .ret s = .next t ∧ t.sp.val = s.sp.val - 1 ∧
      (∀ k : Fin 16, k.val = s.sp.val - 1 → t.pc = s.stack[k]) ∧ SameExcept [.pc, .sp] s t) ∧
    (s.sp.val = 0 → exec .ret s = .next { s with runState := .halted .stackUnderflow })

/-- Call and return round trip: after a `call` with SP < 16, from any later state with the SP and the pushed entry the
call left, `return` puts pc back to a + 2 and SP to what it was (41_control_flow.md R109). -/
def Obligations.CallReturnRoundTrip : Prop :=
  ∀ (nnn : BitVec 12) (s t u : State) (k : Fin 16), k.val = s.sp.val → exec (.call nnn) s = .next t →
    u.sp = t.sp → u.stack[k] = t.stack[k] → ∃ r, exec .ret u = .next r ∧ r.pc = s.pc ∧ r.sp = s.sp

/-- The skips on an immediate add 2 to pc when the register equals (does not equal) it, and change nothing else
(41_control_flow.md R104, R105). -/
def Obligations.SkipsOnImmediate : Prop :=
  ∀ (x : RegIdx) (nn : Byte) (s : State),
    (∃ t, exec (.skipEqImm x nn) s = .next t ∧ t.pc = (if s.v[x] = nn then s.pc + 2 else s.pc) ∧ SameExcept [.pc] s t) ∧
    (∃ t, exec (.skipNeImm x nn) s = .next t ∧ t.pc = (if s.v[x] = nn then s.pc else s.pc + 2) ∧ SameExcept [.pc] s t)

/-- The skips on two registers add 2 to pc when they are equal (not equal), and change nothing else
(41_control_flow.md R106, R107). -/
def Obligations.SkipsOnRegisters : Prop :=
  ∀ (x y : RegIdx) (s : State),
    (∃ t, exec (.skipEqReg x y) s = .next t ∧ t.pc = (if s.v[x] = s.v[y] then s.pc + 2 else s.pc) ∧
      SameExcept [.pc] s t) ∧
    (∃ t, exec (.skipNeReg x y) s = .next t ∧ t.pc = (if s.v[x] = s.v[y] then s.pc else s.pc + 2) ∧
      SameExcept [.pc] s t)

/-- The skips on a key test the key of the low nibble of Vx and change pc alone (46_keypad.md R201, R202; the low
nibble: D12). -/
def Obligations.SkipsOnKey : Prop :=
  ∀ (x : RegIdx) (k : KeyIdx) (s : State), k.val = s.v[x].toNat % 16 →
    (∃ t, exec (.skipKeyDown x) s = .next t ∧ t.pc = (if s.keys[k] then s.pc + 2 else s.pc) ∧ SameExcept [.pc] s t) ∧
    (∃ t, exec (.skipKeyUp x) s = .next t ∧ t.pc = (if s.keys[k] then s.pc else s.pc + 2) ∧ SameExcept [.pc] s t)

/-- `wait-key X` enters WaitingForKey(X) and changes nothing else: no key is looked at, V[X] is not written
(46_keypad.md R203; D13). -/
def Obligations.WaitKeyEntersWaiting : Prop :=
  ∀ (x : RegIdx) (s : State), ∃ t, exec (.waitKey x) s = .next t ∧ t.runState = .waitingForKey x ∧
    SameExcept [.runState] s t

/-! ## Registers and ALU -/

/-- `load-imm` and `load-reg` write V[X] alone: NN, or the old value of V[Y] (42_register_alu.md R121, R123). -/
def Obligations.RegisterLoads : Prop :=
  (∀ (x : RegIdx) (nn : Byte) (s : State), ∃ t, exec (.loadImm x nn) s = .next t ∧ t.v[x] = nn ∧
    RegsExcept [x] s t ∧ SameExcept [.v] s t) ∧
  (∀ (x y : RegIdx) (s : State), ∃ t, exec (.loadReg x y) s = .next t ∧ t.v[x] = s.v[y] ∧
    RegsExcept [x] s t ∧ SameExcept [.v] s t)

/-- `add-imm` adds modulo 256 into V[X] and writes no flag: every other register, VF among them, stays
(42_register_alu.md R122). -/
def Obligations.AddImmWrapsWithoutFlag : Prop :=
  ∀ (x : RegIdx) (nn : Byte) (s : State), ∃ t, exec (.addImm x nn) s = .next t ∧
    t.v[x].toNat = (s.v[x].toNat + nn.toNat) % 256 ∧ RegsExcept [x] s t ∧ SameExcept [.v] s t

/-- `or`, `and`, `xor` combine bit by bit into V[X] and write no other register, VF among them (42_register_alu.md
R124 to R126; that VF is not written: D26). -/
def Obligations.LogicOperations : Prop :=
  ∀ (x y : RegIdx) (s : State),
    (∃ t, exec (.orReg x y) s = .next t ∧
      (∀ b < 8, t.v[x].getLsbD b = (s.v[x].getLsbD b || s.v[y].getLsbD b)) ∧ RegsExcept [x] s t ∧ SameExcept [.v] s t) ∧
    (∃ t, exec (.andReg x y) s = .next t ∧
      (∀ b < 8, t.v[x].getLsbD b = (s.v[x].getLsbD b && s.v[y].getLsbD b)) ∧ RegsExcept [x] s t ∧ SameExcept [.v] s t) ∧
    (∃ t, exec (.xorReg x y) s = .next t ∧
      (∀ b < 8, t.v[x].getLsbD b = (s.v[x].getLsbD b ^^ s.v[y].getLsbD b)) ∧ RegsExcept [x] s t ∧ SameExcept [.v] s t)

/-- `add-reg`: V[X] is the sum modulo 256 of the old values, and VF the carry unless X = 15, where the result stays
(42_register_alu.md R127; latching and write order: D6). -/
def Obligations.AddRegSumAndCarry : Prop :=
  ∀ (x y : RegIdx) (s : State), ∃ t, exec (.addReg x y) s = .next t ∧
    t.v[x].toNat = (s.v[x].toNat + s.v[y].toNat) % 256 ∧
    (x ≠ VF → t.v[VF].toNat = if 255 < s.v[x].toNat + s.v[y].toNat then 1 else 0) ∧
    RegsExcept [x, VF] s t ∧ SameExcept [.v] s t

/-- `sub-reg` and `subn`: V[X] is the difference modulo 256 of the old values, and VF is 1 when there is no borrow,
unless X = 15, where the result stays (42_register_alu.md R128, R130; latching and write order: D6). -/
def Obligations.SubtractionsAndNoBorrow : Prop :=
  ∀ (x y : RegIdx) (s : State),
    (∃ t, exec (.subReg x y) s = .next t ∧ t.v[x].toNat = (s.v[x].toNat + 256 - s.v[y].toNat) % 256 ∧
      (x ≠ VF → t.v[VF].toNat = if s.v[y].toNat ≤ s.v[x].toNat then 1 else 0) ∧
      RegsExcept [x, VF] s t ∧ SameExcept [.v] s t) ∧
    (∃ t, exec (.subn x y) s = .next t ∧ t.v[x].toNat = (s.v[y].toNat + 256 - s.v[x].toNat) % 256 ∧
      (x ≠ VF → t.v[VF].toNat = if s.v[x].toNat ≤ s.v[y].toNat then 1 else 0) ∧
      RegsExcept [x, VF] s t ∧ SameExcept [.v] s t)

/-- `shr` and `shl` shift V[X] itself by one, and VF is the bit shifted out, unless X = 15, where the result stays
(42_register_alu.md R129, R131; write order: D6). -/
def Obligations.ShiftsAndShiftedOutBit : Prop :=
  ∀ (x : RegIdx) (s : State),
    (∃ t, exec (.shr x) s = .next t ∧ t.v[x].toNat = s.v[x].toNat / 2 ∧
      (x ≠ VF → t.v[VF].toNat = s.v[x].toNat % 2) ∧ RegsExcept [x, VF] s t ∧ SameExcept [.v] s t) ∧
    (∃ t, exec (.shl x) s = .next t ∧ t.v[x].toNat = 2 * s.v[x].toNat % 256 ∧
      (x ≠ VF → t.v[VF].toNat = s.v[x].toNat / 128) ∧ RegsExcept [x, VF] s t ∧ SameExcept [.v] s t)

/-- No instruction writes a V register outside those the read and write table gives it (10_state.md R22). -/
def Obligations.RegistersWrittenOnlyAsListed : Prop :=
  ∀ (i : Instr) (s t : State), exec i s = .next t → RegsExcept (writesV i) s t

/-! ## Index register and memory -/

/-- `load-index NNN` sets I to NNN, zero-extended, and changes nothing else (43_index_memory.md R141). -/
def Obligations.LoadIndexSetsI : Prop :=
  ∀ (nnn : BitVec 12) (s : State), ∃ t, exec (.loadIndex nnn) s = .next t ∧ t.i.toNat = nnn.toNat ∧ SameExcept [.i] s t

/-- `add-index X` adds Vx to I modulo 65536, and `load-font-addr X` sets I to the address of the glyph of the low nibble
of Vx; neither changes anything else, VF included (43_index_memory.md R142, R143; no flag: D11, FONT_BASE = 0: D3). -/
def Obligations.IndexArithmetic : Prop :=
  ∀ (x : RegIdx) (s : State),
    (∃ t, exec (.addIndex x) s = .next t ∧ t.i.toNat = (s.i.toNat + s.v[x].toNat) % 65536 ∧ SameExcept [.i] s t) ∧
    (∃ t, exec (.loadFontAddr x) s = .next t ∧ t.i.toNat = 0x000 + 5 * (s.v[x].toNat % 16) ∧ SameExcept [.i] s t)

/-- `store-bcd X` with I + 2 in bounds stores the hundreds, tens and ones of Vx at I, I + 1, I + 2, and no other byte
changes; else it faults OutOfBounds with nothing written (43_index_memory.md R144). The premise on the memory is the
model's list form (log 3). -/
def Obligations.StoreBcdStoresDigits : Prop :=
  ∀ (x : RegIdx) (s : State), s.mem.wf →
    (effectiveAddress s 2 ≤ 0xFFF → ∃ t, exec (.storeBcd x) s = .next t ∧
      (t.mem.read (effectiveAddress s 0)).toNat = s.v[x].toNat / 100 ∧
      (t.mem.read (effectiveAddress s 1)).toNat = s.v[x].toNat / 10 % 10 ∧
      (t.mem.read (effectiveAddress s 2)).toNat = s.v[x].toNat % 10 ∧
      MemExcept (effectiveAddress s 0) 3 s t ∧ SameExcept [.mem] s t) ∧
    (0xFFF < effectiveAddress s 2 → exec (.storeBcd x) s = .next { s with runState := .halted .outOfBounds })

/-- `store-regs X` with I + X in bounds stores V0 to V[X] at I up, and no other byte changes; I stays. Else it faults
OutOfBounds with nothing written (43_index_memory.md R145; I unchanged: D9). The premise on the memory is the model's
list form (log 3). -/
def Obligations.StoreRegsStoresRegisters : Prop :=
  ∀ (x : RegIdx) (s : State), s.mem.wf →
    (effectiveAddress s x.val ≤ 0xFFF → ∃ t, exec (.storeRegs x) s = .next t ∧
      (∀ k : RegIdx, k ≤ x → t.mem.read (effectiveAddress s k.val) = s.v[k]) ∧
      MemExcept (effectiveAddress s 0) (x.val + 1) s t ∧ SameExcept [.mem] s t) ∧
    (0xFFF < effectiveAddress s x.val → exec (.storeRegs x) s = .next { s with runState := .halted .outOfBounds })

/-- `load-regs X` with I + X in bounds loads V0 to V[X] from I up; the registers above X and I stay. Else it faults
OutOfBounds with no register written (43_index_memory.md R146; I unchanged: D9). -/
def Obligations.LoadRegsLoadsRegisters : Prop :=
  ∀ (x : RegIdx) (s : State),
    (effectiveAddress s x.val ≤ 0xFFF → ∃ t, exec (.loadRegs x) s = .next t ∧
      (∀ k : RegIdx, t.v[k] = if k ≤ x then s.mem.read (effectiveAddress s k.val) else s.v[k]) ∧
      SameExcept [.v] s t) ∧
    (0xFFF < effectiveAddress s x.val → exec (.loadRegs x) s = .next { s with runState := .halted .outOfBounds })

/-- Code that `store-regs` stores is fetched: after it, a fetch at the old I reads the word V0, V1 (20_memory.md R64,
R57). The premise on the memory is the model's list form (log 3). -/
def Obligations.StoredCodeIsFetched : Prop :=
  ∀ (x : RegIdx) (s t : State), s.mem.wf → 1 ≤ x.val → effectiveAddress s x.val ≤ 0xFFF →
    exec (.storeRegs x) s = .next t →
    (fetchWord { t with pc := s.i }).toNat = s.v[(0 : RegIdx)].toNat * 256 + s.v[(1 : RegIdx)].toNat

/-- Memory's form is canonical: two memories in that form that read the same at every address are equal data
(log 3). -/
def Obligations.EqualReadsEqualMemory : Prop :=
  ∀ m m' : Memory, m.wf → m'.wf → (∀ a, m.read a = m'.read a) → m = m'

/-- The I register changes in a cycle only by `load-index`, `add-index` or `load-font-addr` (10_state.md R23), and a
byte of memory only by `store-bcd` or `store-regs` (20_memory.md R50). -/
def Obligations.IndexAndMemoryWriters : Prop :=
  ∀ s t : State, step s = .next t →
    (t.i ≠ s.i → s.runState = .running ∧ ((∃ nnn, decode (fetchWord s) = .ok (.loadIndex nnn)) ∨
      (∃ x, decode (fetchWord s) = .ok (.addIndex x)) ∨ ∃ x, decode (fetchWord s) = .ok (.loadFontAddr x))) ∧
    ((∃ a, t.mem.read a ≠ s.mem.read a) → s.runState = .running ∧
      ((∃ x, decode (fetchWord s) = .ok (.storeBcd x)) ∨ ∃ x, decode (fetchWord s) = .ok (.storeRegs x)))

/-! ## Display -/

/-- `clear-screen` turns every pixel off and changes nothing else (44_display.md R161). -/
def Obligations.ClearScreenTurnsAllOff : Prop :=
  ∀ s : State, ∃ t, exec .clearScreen s = .next t ∧ (∀ x y, pixel t.fb x y = false) ∧ SameExcept [.fb] s t

/-- `draw X, Y, N` with its N bytes in bounds (any I when N = 0) flips exactly the pixels the sprite covers; VF is 1 if
one of them was on, else 0; nothing else changes. Otherwise it faults OutOfBounds with no pixel changed and VF not
written (44_display.md R160, R162; latching D6, checks first D7, N = 0 D14). -/
def Obligations.DrawFlipsCoveredPixels : Prop :=
  ∀ (x y : RegIdx) (n : BitVec 4) (s : State),
    (n = 0 ∨ effectiveAddress s (n.toNat - 1) ≤ 0xFFF → ∃ t, exec (.draw x y n) s = .next t ∧
      (∀ cx ry, (SpriteCovers s x y n cx ry → pixel t.fb cx ry = !pixel s.fb cx ry) ∧
        (¬ SpriteCovers s x y n cx ry → pixel t.fb cx ry = pixel s.fb cx ry)) ∧
      ((∃ cx ry, SpriteCovers s x y n cx ry ∧ pixel s.fb cx ry = true) → t.v[VF] = 1) ∧
      ((∀ cx ry, SpriteCovers s x y n cx ry → pixel s.fb cx ry = false) → t.v[VF] = 0) ∧
      RegsExcept [VF] s t ∧ SameExcept [.v, .fb] s t) ∧
    (n ≠ 0 → 0xFFF < effectiveAddress s (n.toNat - 1) →
      exec (.draw x y n) s = .next { s with runState := .halted .outOfBounds })

/-- Two identical draws with nothing in between that writes the framebuffer restore it; the second reports VF = 1
exactly when a pixel the sprite covers was off before the first (44_display.md R162, R163; log 6). -/
def Obligations.DrawTwiceRestores : Prop :=
  ∀ (x y : RegIdx) (n : BitVec 4) (s t u : State),
    (n = 0 ∨ effectiveAddress s (n.toNat - 1) ≤ 0xFFF) → exec (.draw x y n) s = .next t →
    u.fb = t.fb → u.i = s.i → u.v[x] = s.v[x] → u.v[y] = s.v[y] → (∀ a, u.mem.read a = s.mem.read a) →
    ∃ r, exec (.draw x y n) u = .next r ∧ r.fb = s.fb ∧
      (r.v[VF] = 1 ↔ ∃ cx ry, SpriteCovers s x y n cx ry ∧ pixel s.fb cx ry = false)

/-! ## Timers, random source, keypad -/

/-- `load-delay` reads DT into V[X], `set-delay` and `set-sound` write Vx to DT and ST, the sound output then being
on while Vx > 0; none changes anything else (45_timers_random.md R182 to R184). -/
def Obligations.TimerInstructions : Prop :=
  ∀ (x : RegIdx) (s : State),
    (∃ t, exec (.loadDelay x) s = .next t ∧ t.v[x] = s.dt ∧ RegsExcept [x] s t ∧ SameExcept [.v] s t) ∧
    (∃ t, exec (.setDelay x) s = .next t ∧ t.dt = s.v[x] ∧ SameExcept [.dt] s t) ∧
    (∃ t, exec (.setSound x) s = .next t ∧ t.st = s.v[x] ∧ (soundOn t = true ↔ 0 < s.v[x].toNat) ∧
      SameExcept [.st] s t)

/-- `random X, NN` writes the next byte of the stream, masked by NN, to V[X] and takes one byte, also when NN = 0;
for every stream (45_timers_random.md R181, 60_exceptions.md R240; the stream as a parameter: D17, log 2). -/
def Obligations.RandomTakesOneByte : Prop :=
  ∀ (x : RegIdx) (nn : Byte) (s : State), ∃ t, exec (.random x nn) s = .next t ∧
    (∀ b < 8, t.v[x].getLsbD b = ((Config.rngStream s.rngPos).getLsbD b && nn.getLsbD b)) ∧
    t.rngPos = s.rngPos + 1 ∧ RegsExcept [x] s t ∧ SameExcept [.v, .rngPos] s t

/-- A cycle changes DT only by `set-delay`, ST only by `set-sound`, the framebuffer only by `draw` or `clear-screen`,
RngPos only by `random`, the stack only by `call`, SP only by `call` or `return`, and the keypad never
(10_state.md R25 to R28, R31, 60_exceptions.md R236). -/
def Obligations.DeviceAndStackWriters : Prop :=
  ∀ s t : State, step s = .next t →
    (t.dt ≠ s.dt → s.runState = .running ∧ ∃ x, decode (fetchWord s) = .ok (.setDelay x)) ∧
    (t.st ≠ s.st → s.runState = .running ∧ ∃ x, decode (fetchWord s) = .ok (.setSound x)) ∧
    (t.fb ≠ s.fb → s.runState = .running ∧ (decode (fetchWord s) = .ok .clearScreen ∨
      ∃ x y n, decode (fetchWord s) = .ok (.draw x y n))) ∧
    (t.rngPos ≠ s.rngPos → s.runState = .running ∧ ∃ x nn, decode (fetchWord s) = .ok (.random x nn)) ∧
    (t.stack ≠ s.stack → s.runState = .running ∧ ∃ nnn, decode (fetchWord s) = .ok (.call nnn)) ∧
    (t.sp ≠ s.sp → s.runState = .running ∧ (decode (fetchWord s) = .ok .ret ∨
      ∃ nnn, decode (fetchWord s) = .ok (.call nnn))) ∧
    t.keys = s.keys

/-! ## Whole-machine rules -/

/-- The invariant (memory canonical, pc at most 0x10FE, stack entries at most 0x1000) is kept by every step from every
state that has it (10_state.md R24, 41_control_flow.md R101). The clause on the memory is about the model's own list
form, its choice (log 3), which no rule of the spec gives. -/
def Obligations.StepKeepsInv : Prop :=
  ∀ s t : State, s.Inv → step s = .next t → t.Inv

/-- The state after construction (70_reset_and_hazards.md R260) has the invariant. The clause on the memory is about the
model's own list form, its choice (log 3), which no rule of the spec gives. -/
def Obligations.ResetHasInv : Prop := State.reset.Inv

/-- Every schedule of host operations, in any order, keeps the invariant (the operations: 60_exceptions.md R245, R246). The
clause on the memory is about the model's own list form (log 3), and a schedule is held as a list that `performAll`
runs (log 8): both are the model's choices. -/
def Obligations.SchedulesKeepInv : Prop :=
  ∀ (ops : List HostOp) (s t : State) (rs : List HostResult), s.Inv → performAll ops s = .next (t, rs) → t.Inv

/-- The run state changes only so: Running to WaitingForKey(X) by `wait-key`, WaitingForKey to Running when a cycle
sees a key down, Running to Halted by a cycle's fault, and any state to Running by a successful load (10_state.md R29). The
operations as functions beside the step (log 8), and a cycle's result read off the state after it (log 7), are the
model's. -/
def Obligations.RunStateTransitions : Prop :=
  ∀ (op : HostOp) (s t : State) (r : HostResult), perform op s = .next (t, r) → t.runState ≠ s.runState →
    (op = .cycle ∧ s.runState = .running ∧
      ∃ x, decode (fetchWord s) = .ok (.waitKey x) ∧ t.runState = .waitingForKey x) ∨
    (op = .cycle ∧ (∃ x, s.runState = .waitingForKey x) ∧ (∃ k : KeyIdx, s.keys[k] = true) ∧ t.runState = .running) ∨
    (op = .cycle ∧ s.runState = .running ∧ ∃ f, t.runState = .halted f ∧ r = .fault (.ofCycle f)) ∨
    (∃ bytes, op = .load bytes ∧ 0x200 + bytes.length ≤ 4096 ∧ t.runState = .running)

/-- The stale entries of the call stack are never read: two states that differ only in them step to two states that
differ only in them (10_state.md R33). -/
def Obligations.StaleStackEntriesNeverObserved : Prop :=
  ∀ s t s' : State, EqUpToStaleStack s t → step s = .next s' → ∃ t', step t = .next t' ∧ EqUpToStaleStack s' t'

/-- No instruction reads ST: two states that differ only in ST step to two states that differ only in ST
(10_state.md R26). -/
def Obligations.SoundTimerNeverReadByProgram : Prop :=
  ∀ (s s' : State) (b : Byte), step s = .next s' →
    ∃ t', step { s with st := b } = .next t' ∧ t' = { s' with st := t'.st }

/-- A run that has ended, in Halted or in a self-loop `jump pc`, steps to itself (70_reset_and_hazards.md R267; the two
shapes as the end of a run: D32). -/
def Obligations.EndedRunsAreQuiescent : Prop :=
  ∀ s : State, s.runEnded → step s = .next s

/-! ## Reset and host operations -/

/-- The construction state is what a load of the empty program leaves with every key up and no random byte taken, and a
cycle before any load raises UnknownOpcode at 0x200 (70_reset_and_hazards.md R260; D16). -/
def Obligations.ConstructionState : Prop :=
  (∀ s : State, (∀ k : KeyIdx, s.keys[k] = false) → s.rngPos = 0 → load [] s = (State.reset, .ok)) ∧
  step State.reset = .next { State.reset with pc := 0x202, runState := .halted .unknownOpcode }

/-- A load that fits resets everything but the keypad and RngPos, writes the program at 0x200 and leaves the font and
zeros everywhere else (70_reset_and_hazards.md R261, 20_memory.md R55; the values: D2, D15). -/
def Obligations.LoadResetsTheBlock : Prop :=
  ∀ (bytes : List Byte) (s : State), 0x200 + bytes.length ≤ 4096 →
    ∃ t, perform (.load bytes) s = .next (t, .ok) ∧
      (∀ a, t.mem.read a = if 0x200 ≤ a ∧ a < 0x200 + bytes.length then bytes.getD (a - 0x200) 0
        else if a < 80 then fontData.getD a 0 else 0) ∧
      (∀ k : RegIdx, t.v[k] = 0) ∧ t.i = 0 ∧ t.pc = 0x200 ∧ t.sp = 0 ∧ (∀ k : Fin 16, t.stack[k] = 0) ∧
      t.dt = 0 ∧ t.st = 0 ∧ (∀ x y, pixel t.fb x y = false) ∧ t.runState = .running ∧
      t.keys = s.keys ∧ t.rngPos = s.rngPos

/-- A load that would pass the end of memory returns ProgramTooLarge and changes nothing (60_exceptions.md R225). -/
def Obligations.LoadTooLargeChangesNothing : Prop :=
  ∀ (bytes : List Byte) (s : State), 4096 < Config.programBase + bytes.length →
    perform (.load bytes) s = .next (s, .fault .programTooLarge)

/-- n ticks take n from each timer, never below 0, in every run state, and touch nothing else (60_exceptions.md R235,
R236; every run state: D18; a schedule as a list: log 8). -/
def Obligations.TicksCountDown : Prop :=
  ∀ (n : Nat) (s : State), ∃ t rs, performAll (List.replicate n .tickTimers) s = .next (t, rs) ∧
    t.dt.toNat = s.dt.toNat - n ∧ t.st.toNat = s.st.toNat - n ∧ SameExcept [.dt, .st] s t

/-- `set_key` writes one key, in every run state, and touches nothing else (60_exceptions.md R237; the index: D28). -/
def Obligations.SetKeyWritesOneKey : Prop :=
  ∀ (k : KeyIdx) (down : Bool) (s : State), ∃ t, perform (.setKey k down) s = .next (t, .none) ∧
    (∀ j : KeyIdx, t.keys[j] = if j = k then down else s.keys[j]) ∧ SameExcept [.keys] s t

/-- The framebuffer read gives the whole grid and the sound read gives ST > 0, and neither changes anything
(60_exceptions.md R238, R239). -/
def Obligations.OutputsAreReadOnly : Prop :=
  ∀ s : State, perform .readFramebuffer s = .next (s, .framebuffer s.fb) ∧
    ∃ on, perform .readSound s = .next (s, .sound on) ∧ (on = true ↔ 0 < s.st.toNat)

/-- A table word placed for the fetch is what the next step runs, from any state with a canonical memory (log 3): the
model's own reading of how the host's check reaches an instruction (log 4). -/
def Obligations.PlacedWordRunsNext : Prop :=
  ∀ (s : State) (w : Nat) (i : Instr), s.mem.wf → decodeTableWord 16 w = some i →
    ∃ p : State, step (s.withFetchWord 16 w) = exec i p ∧ p.runState = .running ∧
      SameExcept [.pc, .mem, .runState] s p ∧ (s.pc.toNat ≤ 0xFFE → p.pc = s.pc + 2)
end

