-- ==== Sys2Proof/Laws/Decode.lean ====
section
/-! SUPPORT. The fields of a word put together from fields, by format, and a word put together from its own fields
(30_encoding.md R72, R73). -/

namespace Sys2Proof

@[simp] theorem regOfNibble_nibbleOfReg (r : RegIdx) : regOfNibble (nibbleOfReg r) = r := by
  ext; simp [regOfNibble, nibbleOfReg]

@[simp] theorem nibbleOfReg_regOfNibble (n : BitVec 4) : nibbleOfReg (regOfNibble n) = n := by
  simp [regOfNibble, nibbleOfReg]

/-! ## Fields of an assembled word -/

section
variable (c : BitVec 4) (x y : RegIdx) (n : BitVec 4) (nn : Byte) (nnn : BitVec 12)

@[simp] theorem fieldC_wordNNN : fieldC (wordNNN c nnn) = c := BitVec.extractLsb'_append_eq_left

@[simp] theorem fieldNNN_wordNNN : fieldNNN (wordNNN c nnn) = nnn := BitVec.extractLsb'_append_eq_right

@[simp] theorem fieldC_wordXNN : fieldC (wordXNN c x nn) = c := by
  unfold fieldC wordXNN
  rw [BitVec.extractLsb'_append_eq_of_le (by decide)]
  exact BitVec.extractLsb'_append_eq_left

@[simp] theorem fieldX_wordXNN : fieldX (wordXNN c x nn) = x := by
  unfold fieldX wordXNN
  rw [BitVec.extractLsb'_append_eq_of_le (by decide)]
  exact (congrArg regOfNibble BitVec.extractLsb'_append_eq_right).trans (regOfNibble_nibbleOfReg x)

@[simp] theorem fieldNN_wordXNN : fieldNN (wordXNN c x nn) = nn := BitVec.extractLsb'_append_eq_right

@[simp] theorem fieldC_wordXYN : fieldC (wordXYN c x y n) = c := by
  unfold fieldC wordXYN
  rw [BitVec.extractLsb'_append_eq_of_le (by decide), BitVec.extractLsb'_append_eq_of_le (by decide)]
  exact BitVec.extractLsb'_append_eq_left

@[simp] theorem fieldX_wordXYN : fieldX (wordXYN c x y n) = x := by
  unfold fieldX wordXYN
  rw [BitVec.extractLsb'_append_eq_of_le (by decide), BitVec.extractLsb'_append_eq_of_le (by decide)]
  exact (congrArg regOfNibble BitVec.extractLsb'_append_eq_right).trans (regOfNibble_nibbleOfReg x)

@[simp] theorem fieldY_wordXYN : fieldY (wordXYN c x y n) = y := by
  unfold fieldY wordXYN
  rw [BitVec.extractLsb'_append_eq_of_le (by decide)]
  exact (congrArg regOfNibble BitVec.extractLsb'_append_eq_right).trans (regOfNibble_nibbleOfReg y)

@[simp] theorem fieldN_wordXYN : fieldN (wordXYN c x y n) = n := BitVec.extractLsb'_append_eq_right

end

/-! ## A word from its own fields -/

section
variable (w : Word)

/-- Two adjoining fields put together are the field that spans them. -/
theorem adjoin (lo n m : Nat) : w.extractLsb' (lo + n) m ++ w.extractLsb' lo n = w.extractLsb' lo (m + n) :=
  BitVec.extractLsb'_append_extractLsb'_eq_extractLsb' rfl

@[simp] theorem wordNNN_fields : wordNNN (fieldC w) (fieldNNN w) = w :=
  (adjoin w 0 12 4).trans BitVec.extractLsb'_eq_self

@[simp] theorem wordXNN_fields : wordXNN (fieldC w) (fieldX w) (fieldNN w) = w := by
  unfold wordXNN fieldC fieldX fieldNN
  rw [nibbleOfReg_regOfNibble, adjoin w 8 4 4]
  exact (adjoin w 0 8 8).trans BitVec.extractLsb'_eq_self

@[simp] theorem wordXYN_fields : wordXYN (fieldC w) (fieldX w) (fieldY w) (fieldN w) = w := by
  unfold wordXYN fieldC fieldX fieldY fieldN
  rw [nibbleOfReg_regOfNibble, nibbleOfReg_regOfNibble, adjoin w 8 4 4, adjoin w 4 4 8]
  exact (adjoin w 0 4 12).trans BitVec.extractLsb'_eq_self

variable {w}

/-- A word whose class is `c`, from its fields (format `NNN`). -/
theorem wordNNN_of_class {c : BitVec 4} (hc : fieldC w = c) : wordNNN c (fieldNNN w) = w := by
  subst hc
  exact wordNNN_fields w

/-- A word whose class is `c`, from its fields (format `XNN`). -/
theorem wordXNN_of_class {c : BitVec 4} {nn : Byte} (hc : fieldC w = c) (hn : fieldNN w = nn) :
    wordXNN c (fieldX w) nn = w := by
  subst hc hn
  exact wordXNN_fields w

/-- A word whose class is `c`, from its fields (formats `XY` and `XYN`). -/
theorem wordXYN_of_class {c n : BitVec 4} (hc : fieldC w = c) (hn : fieldN w = n) :
    wordXYN c (fieldX w) (fieldY w) n = w := by
  subst hc hn
  exact wordXYN_fields w

variable (w)

/-- The Y field masked off. -/
theorem wordXYN_and_mask (c n : BitVec 4) (x y : RegIdx) : wordXYN c x y n &&& 0xFF0F = wordXYN c x 0 n := by
  have h1 : (c ++ nibbleOfReg x ++ nibbleOfReg y) &&& (0xFF0 : BitVec 12) = c ++ nibbleOfReg x ++ nibbleOfReg 0 := by
    have h2 : (c ++ nibbleOfReg x) &&& (0xFF : BitVec 8) = c ++ nibbleOfReg x := BitVec.and_allOnes
    exact (BitVec.and_append (x₂ := (0xFF : BitVec 8)) (y₂ := (0 : BitVec 4))).trans
      (congrArg₂ (· ++ ·) h2 BitVec.and_zero)
  exact (BitVec.and_append (x₂ := (0xFF0 : BitVec 12)) (y₂ := (0xF : BitVec 4))).trans
    (congrArg₂ (· ++ ·) h1 BitVec.and_allOnes)

/-- The bytes of a word put together again are the word. -/
theorem decodeBytes_bytesOfWord (rest : List Byte) :
    decodeBytes (bytesOfWord w ++ rest) =
      match decode w with
      | .ok i => .ok (i, rest)
      | .error e => .error e := by
  have h : wordOfBytes (w.extractLsb' 8 8) (w.extractLsb' 0 8) = w :=
    (adjoin w 0 8 8).trans BitVec.extractLsb'_eq_self
  cases hd : decode w <;> simp [bytesOfWord, decodeBytes, h, hd]

end

end Sys2Proof
end

