-- ==== Sys2Proof/Laws/Display.lean ====
section
/-! SUPPORT. What a blit does to each pixel, and where a sprite's set bits land (44_display.md R160 to R163). -/

namespace Sys2Proof.Machine

/-- A pixel read after one pixel written. -/
theorem pixel_setPixel (f : Framebuffer) (x x' : Column) (y y' : Row) (on : Bool) :
    pixel (setPixel f x y on) x' y' = if x' = x ∧ y' = y then on else pixel f x' y' := by
  unfold pixel setPixel
  simp only [Fin.getElem_fin, Vector.getElem_set]
  by_cases hx : x' = x
  · subst hx
    by_cases hy : y' = y
    · subst hy; simp
    · have : (y : Nat) ≠ y' := fun h => hy (Fin.ext h.symm)
      simp [hy, this]
  · have : (x : Nat) ≠ x' := fun h => hx (Fin.ext h.symm)
    simp [hx, this]

/-- Two framebuffers with the same pixels are equal. -/
theorem framebuffer_ext {f g : Framebuffer} (h : ∀ x y, pixel f x y = pixel g x y) : f = g := by
  apply Vector.ext
  intro x hx
  apply Vector.ext
  intro y hy
  exact h ⟨x, hx⟩ ⟨y, hy⟩

@[simp] theorem pixel_blank (x : Column) (y : Row) : pixel blankFramebuffer x y = false := by
  simp [pixel, blankFramebuffer]

/-- The fold of a blit over pixels visited once each, from any framebuffer and collision so far. -/
theorem foldl_blitPixel (ps : List (Column × Row)) (hps : ps.Nodup) (f : Framebuffer) (hit : Bool) :
    (∀ x y, pixel (ps.foldl blitPixel (f, hit)).1 x y = (pixel f x y ^^ decide ((x, y) ∈ ps))) ∧
      (ps.foldl blitPixel (f, hit)).2 = (hit || ps.any fun p => pixel f p.1 p.2) := by
  induction ps generalizing f hit with
  | nil => simp
  | cons p ps ih =>
    obtain ⟨hp, hps⟩ := List.nodup_cons.mp hps
    obtain ⟨h1, h2⟩ := ih hps (setPixel f p.1 p.2 (!pixel f p.1 p.2)) (hit || pixel f p.1 p.2)
    rw [List.foldl_cons]
    refine ⟨fun x y => ?_, ?_⟩
    · rw [blitPixel, h1 x y, pixel_setPixel]
      by_cases hxy : (x, y) = p
      · subst hxy
        simp [hp]
      · have : ¬ (x = p.1 ∧ y = p.2) := fun h => hxy (Prod.ext h.1 h.2)
        simp [this, hxy]
    · rw [blitPixel, h2, List.any_cons, Bool.or_assoc]
      have hq : ∀ q ∈ ps, pixel (setPixel f p.1 p.2 (!pixel f p.1 p.2)) q.1 q.2 = pixel f q.1 q.2 := by
        intro q hq
        rw [pixel_setPixel, if_neg]
        rintro ⟨hx, hy⟩
        exact hp (Prod.ext hx hy ▸ hq)
      have hany : (ps.any fun q => pixel (setPixel f p.1 p.2 (!pixel f p.1 p.2)) q.1 q.2) =
          ps.any fun q => pixel f q.1 q.2 := by
        rw [Bool.eq_iff_iff]
        simp only [List.any_eq_true]
        exact exists_congr fun q => and_congr_right fun h => by rw [hq q h]
      rw [hany]

/-- Each pixel after a blit of pixels visited once each: flipped exactly where visited. -/
theorem pixel_blit (f : Framebuffer) (ps : List (Column × Row)) (hps : ps.Nodup) (x : Column) (y : Row) :
    pixel (blit f ps).1 x y = (pixel f x y ^^ decide ((x, y) ∈ ps)) :=
  (foldl_blitPixel ps hps f false).1 x y

/-- The collision of a blit of pixels visited once each: some visited pixel was on. -/
theorem blit_collision (f : Framebuffer) (ps : List (Column × Row)) (hps : ps.Nodup) :
    (blit f ps).2 = ps.any fun p => pixel f p.1 p.2 := by
  rw [blit, (foldl_blitPixel ps hps f false).2, Bool.false_or]

/-- Where the set bits of one row byte land. -/
theorem mem_rowPixels {vx vy b : Byte} {r : Nat} {p : Column × Row} :
    p ∈ rowPixels vx vy r b ↔ p.2 = spriteRow vy r ∧ ∃ c < 8, spriteBit b c = true ∧ p.1 = spriteColumn vx c := by
  simp only [rowPixels, List.mem_map, List.mem_filter, List.mem_range]
  constructor
  · rintro ⟨c, ⟨hc, hb⟩, rfl⟩
    exact ⟨rfl, c, hc, hb, rfl⟩
  · rintro ⟨hy, c, hc, hb, hx⟩
    exact ⟨c, ⟨hc, hb⟩, (Prod.ext hx hy).symm⟩

/-- Where the set bits of a sprite whose first byte is sprite row `r` land. -/
theorem mem_spritePixels {vx vy : Byte} {r : Nat} {bs : List Byte} {p : Column × Row} :
    p ∈ spritePixels vx vy r bs ↔ ∃ k, ∃ h : k < bs.length, ∃ c < 8,
      spriteBit bs[k] c = true ∧ p = (spriteColumn vx c, spriteRow vy (r + k)) := by
  induction bs generalizing r with
  | nil => simp [spritePixels]
  | cons b bs ih =>
    rw [spritePixels, List.mem_append, mem_rowPixels, ih]
    constructor
    · rintro (⟨hy, c, hc, hb, hx⟩ | ⟨k, hk, c, hc, hb, hp⟩)
      · exact ⟨0, by simp, c, hc, by simpa using hb, Prod.ext hx hy⟩
      · exact ⟨k + 1, by simpa using hk, c, hc, by simpa using hb, by rw [hp]; congr 2; omega⟩
    · rintro ⟨k, hk, c, hc, hb, hp⟩
      cases k with
      | zero => exact .inl ⟨by rw [hp]; rfl, c, hc, by simpa using hb, by rw [hp]⟩
      | succ k =>
        exact .inr ⟨k, by simpa using hk, c, hc, by simpa using hb, by rw [hp]; congr 2; omega⟩

/-- The 8 sprite columns are distinct modulo 64 (44_display.md R163). -/
theorem spriteColumn_injective {vx : Byte} {c d : Nat} (hc : c < 8) (hd : d < 8)
    (h : spriteColumn vx c = spriteColumn vx d) : c = d := by
  have := congrArg Fin.val h
  simp only [spriteColumn, Fin.ofNat] at this
  omega

/-- Up to 32 sprite rows are distinct modulo 32 (44_display.md R163). -/
theorem spriteRow_injective {vy : Byte} {r q : Nat} (hr : r < 32) (hq : q < 32)
    (h : spriteRow vy r = spriteRow vy q) : r = q := by
  have := congrArg Fin.val h
  simp only [spriteRow, Fin.ofNat] at this
  omega

/-- No pixel of a sprite of at most 32 rows is visited twice (44_display.md R163). -/
theorem spritePixels_nodup (vx vy : Byte) (r : Nat) (bs : List Byte) (h : r + bs.length ≤ 32) :
    (spritePixels vx vy r bs).Nodup := by
  induction bs generalizing r with
  | nil => simp [spritePixels]
  | cons b bs ih =>
    rw [List.length_cons] at h
    rw [spritePixels, List.nodup_append']
    refine ⟨?_, ih (r + 1) (by omega), ?_⟩
    · refine List.Nodup.map_on ?_ ((List.nodup_range).filter _)
      intro c hc d hd hcd
      simp only [List.mem_filter, List.mem_range] at hc hd
      exact spriteColumn_injective hc.1 hd.1 (congrArg Prod.fst hcd)
    · intro p hp hq
      rw [mem_rowPixels] at hp
      obtain ⟨k, hk, c, hc, -, rfl⟩ := mem_spritePixels.mp hq
      have := spriteRow_injective (by omega) (by omega) hp.1
      omega

end Sys2Proof.Machine
end

