-- ==== Sys2Proof/Laws/State.lean ====
section
/-! SUPPORT. One lemma per field per named update of State, so that no proof unfolds a record update. -/

namespace Sys2Proof.Machine

variable (s : State)

@[simp] theorem State.writeV_v (x : RegIdx) (b : Byte) : (s.writeV x b).v = s.v.set x b := rfl
@[simp] theorem State.writeV_i (x : RegIdx) (b : Byte) : (s.writeV x b).i = s.i := rfl
@[simp] theorem State.writeV_pc (x : RegIdx) (b : Byte) : (s.writeV x b).pc = s.pc := rfl
@[simp] theorem State.writeV_stack (x : RegIdx) (b : Byte) : (s.writeV x b).stack = s.stack := rfl
@[simp] theorem State.writeV_sp (x : RegIdx) (b : Byte) : (s.writeV x b).sp = s.sp := rfl
@[simp] theorem State.writeV_dt (x : RegIdx) (b : Byte) : (s.writeV x b).dt = s.dt := rfl
@[simp] theorem State.writeV_st (x : RegIdx) (b : Byte) : (s.writeV x b).st = s.st := rfl
@[simp] theorem State.writeV_keys (x : RegIdx) (b : Byte) : (s.writeV x b).keys = s.keys := rfl
@[simp] theorem State.writeV_fb (x : RegIdx) (b : Byte) : (s.writeV x b).fb = s.fb := rfl
@[simp] theorem State.writeV_mem (x : RegIdx) (b : Byte) : (s.writeV x b).mem = s.mem := rfl
@[simp] theorem State.writeV_runState (x : RegIdx) (b : Byte) : (s.writeV x b).runState = s.runState := rfl
@[simp] theorem State.writeV_rngPos (x : RegIdx) (b : Byte) : (s.writeV x b).rngPos = s.rngPos := rfl

@[simp] theorem State.writeFlagThenV_v (x : RegIdx) (flag b : Byte) : (s.writeFlagThenV x flag b).v = (s.v.set (15 : RegIdx) flag).set x b := rfl
@[simp] theorem State.writeFlagThenV_i (x : RegIdx) (flag b : Byte) : (s.writeFlagThenV x flag b).i = s.i := rfl
@[simp] theorem State.writeFlagThenV_pc (x : RegIdx) (flag b : Byte) : (s.writeFlagThenV x flag b).pc = s.pc := rfl
@[simp] theorem State.writeFlagThenV_stack (x : RegIdx) (flag b : Byte) : (s.writeFlagThenV x flag b).stack = s.stack := rfl
@[simp] theorem State.writeFlagThenV_sp (x : RegIdx) (flag b : Byte) : (s.writeFlagThenV x flag b).sp = s.sp := rfl
@[simp] theorem State.writeFlagThenV_dt (x : RegIdx) (flag b : Byte) : (s.writeFlagThenV x flag b).dt = s.dt := rfl
@[simp] theorem State.writeFlagThenV_st (x : RegIdx) (flag b : Byte) : (s.writeFlagThenV x flag b).st = s.st := rfl
@[simp] theorem State.writeFlagThenV_keys (x : RegIdx) (flag b : Byte) : (s.writeFlagThenV x flag b).keys = s.keys := rfl
@[simp] theorem State.writeFlagThenV_fb (x : RegIdx) (flag b : Byte) : (s.writeFlagThenV x flag b).fb = s.fb := rfl
@[simp] theorem State.writeFlagThenV_mem (x : RegIdx) (flag b : Byte) : (s.writeFlagThenV x flag b).mem = s.mem := rfl
@[simp] theorem State.writeFlagThenV_runState (x : RegIdx) (flag b : Byte) : (s.writeFlagThenV x flag b).runState = s.runState := rfl
@[simp] theorem State.writeFlagThenV_rngPos (x : RegIdx) (flag b : Byte) : (s.writeFlagThenV x flag b).rngPos = s.rngPos := rfl

@[simp] theorem State.setV_v (w : Vector Byte 16) : (s.setV w).v = w := rfl
@[simp] theorem State.setV_i (w : Vector Byte 16) : (s.setV w).i = s.i := rfl
@[simp] theorem State.setV_pc (w : Vector Byte 16) : (s.setV w).pc = s.pc := rfl
@[simp] theorem State.setV_stack (w : Vector Byte 16) : (s.setV w).stack = s.stack := rfl
@[simp] theorem State.setV_sp (w : Vector Byte 16) : (s.setV w).sp = s.sp := rfl
@[simp] theorem State.setV_dt (w : Vector Byte 16) : (s.setV w).dt = s.dt := rfl
@[simp] theorem State.setV_st (w : Vector Byte 16) : (s.setV w).st = s.st := rfl
@[simp] theorem State.setV_keys (w : Vector Byte 16) : (s.setV w).keys = s.keys := rfl
@[simp] theorem State.setV_fb (w : Vector Byte 16) : (s.setV w).fb = s.fb := rfl
@[simp] theorem State.setV_mem (w : Vector Byte 16) : (s.setV w).mem = s.mem := rfl
@[simp] theorem State.setV_runState (w : Vector Byte 16) : (s.setV w).runState = s.runState := rfl
@[simp] theorem State.setV_rngPos (w : Vector Byte 16) : (s.setV w).rngPos = s.rngPos := rfl

@[simp] theorem State.setI_v (w : Word) : (s.setI w).v = s.v := rfl
@[simp] theorem State.setI_i (w : Word) : (s.setI w).i = w := rfl
@[simp] theorem State.setI_pc (w : Word) : (s.setI w).pc = s.pc := rfl
@[simp] theorem State.setI_stack (w : Word) : (s.setI w).stack = s.stack := rfl
@[simp] theorem State.setI_sp (w : Word) : (s.setI w).sp = s.sp := rfl
@[simp] theorem State.setI_dt (w : Word) : (s.setI w).dt = s.dt := rfl
@[simp] theorem State.setI_st (w : Word) : (s.setI w).st = s.st := rfl
@[simp] theorem State.setI_keys (w : Word) : (s.setI w).keys = s.keys := rfl
@[simp] theorem State.setI_fb (w : Word) : (s.setI w).fb = s.fb := rfl
@[simp] theorem State.setI_mem (w : Word) : (s.setI w).mem = s.mem := rfl
@[simp] theorem State.setI_runState (w : Word) : (s.setI w).runState = s.runState := rfl
@[simp] theorem State.setI_rngPos (w : Word) : (s.setI w).rngPos = s.rngPos := rfl

@[simp] theorem State.setPc_v (w : Word) : (s.setPc w).v = s.v := rfl
@[simp] theorem State.setPc_i (w : Word) : (s.setPc w).i = s.i := rfl
@[simp] theorem State.setPc_pc (w : Word) : (s.setPc w).pc = w := rfl
@[simp] theorem State.setPc_stack (w : Word) : (s.setPc w).stack = s.stack := rfl
@[simp] theorem State.setPc_sp (w : Word) : (s.setPc w).sp = s.sp := rfl
@[simp] theorem State.setPc_dt (w : Word) : (s.setPc w).dt = s.dt := rfl
@[simp] theorem State.setPc_st (w : Word) : (s.setPc w).st = s.st := rfl
@[simp] theorem State.setPc_keys (w : Word) : (s.setPc w).keys = s.keys := rfl
@[simp] theorem State.setPc_fb (w : Word) : (s.setPc w).fb = s.fb := rfl
@[simp] theorem State.setPc_mem (w : Word) : (s.setPc w).mem = s.mem := rfl
@[simp] theorem State.setPc_runState (w : Word) : (s.setPc w).runState = s.runState := rfl
@[simp] theorem State.setPc_rngPos (w : Word) : (s.setPc w).rngPos = s.rngPos := rfl

@[simp] theorem State.setDt_v (b : Byte) : (s.setDt b).v = s.v := rfl
@[simp] theorem State.setDt_i (b : Byte) : (s.setDt b).i = s.i := rfl
@[simp] theorem State.setDt_pc (b : Byte) : (s.setDt b).pc = s.pc := rfl
@[simp] theorem State.setDt_stack (b : Byte) : (s.setDt b).stack = s.stack := rfl
@[simp] theorem State.setDt_sp (b : Byte) : (s.setDt b).sp = s.sp := rfl
@[simp] theorem State.setDt_dt (b : Byte) : (s.setDt b).dt = b := rfl
@[simp] theorem State.setDt_st (b : Byte) : (s.setDt b).st = s.st := rfl
@[simp] theorem State.setDt_keys (b : Byte) : (s.setDt b).keys = s.keys := rfl
@[simp] theorem State.setDt_fb (b : Byte) : (s.setDt b).fb = s.fb := rfl
@[simp] theorem State.setDt_mem (b : Byte) : (s.setDt b).mem = s.mem := rfl
@[simp] theorem State.setDt_runState (b : Byte) : (s.setDt b).runState = s.runState := rfl
@[simp] theorem State.setDt_rngPos (b : Byte) : (s.setDt b).rngPos = s.rngPos := rfl

@[simp] theorem State.setSt_v (b : Byte) : (s.setSt b).v = s.v := rfl
@[simp] theorem State.setSt_i (b : Byte) : (s.setSt b).i = s.i := rfl
@[simp] theorem State.setSt_pc (b : Byte) : (s.setSt b).pc = s.pc := rfl
@[simp] theorem State.setSt_stack (b : Byte) : (s.setSt b).stack = s.stack := rfl
@[simp] theorem State.setSt_sp (b : Byte) : (s.setSt b).sp = s.sp := rfl
@[simp] theorem State.setSt_dt (b : Byte) : (s.setSt b).dt = s.dt := rfl
@[simp] theorem State.setSt_st (b : Byte) : (s.setSt b).st = b := rfl
@[simp] theorem State.setSt_keys (b : Byte) : (s.setSt b).keys = s.keys := rfl
@[simp] theorem State.setSt_fb (b : Byte) : (s.setSt b).fb = s.fb := rfl
@[simp] theorem State.setSt_mem (b : Byte) : (s.setSt b).mem = s.mem := rfl
@[simp] theorem State.setSt_runState (b : Byte) : (s.setSt b).runState = s.runState := rfl
@[simp] theorem State.setSt_rngPos (b : Byte) : (s.setSt b).rngPos = s.rngPos := rfl

@[simp] theorem State.setKey_v (k : KeyIdx) (down : Bool) : (s.setKey k down).v = s.v := rfl
@[simp] theorem State.setKey_i (k : KeyIdx) (down : Bool) : (s.setKey k down).i = s.i := rfl
@[simp] theorem State.setKey_pc (k : KeyIdx) (down : Bool) : (s.setKey k down).pc = s.pc := rfl
@[simp] theorem State.setKey_stack (k : KeyIdx) (down : Bool) : (s.setKey k down).stack = s.stack := rfl
@[simp] theorem State.setKey_sp (k : KeyIdx) (down : Bool) : (s.setKey k down).sp = s.sp := rfl
@[simp] theorem State.setKey_dt (k : KeyIdx) (down : Bool) : (s.setKey k down).dt = s.dt := rfl
@[simp] theorem State.setKey_st (k : KeyIdx) (down : Bool) : (s.setKey k down).st = s.st := rfl
@[simp] theorem State.setKey_keys (k : KeyIdx) (down : Bool) : (s.setKey k down).keys = s.keys.set k down := rfl
@[simp] theorem State.setKey_fb (k : KeyIdx) (down : Bool) : (s.setKey k down).fb = s.fb := rfl
@[simp] theorem State.setKey_mem (k : KeyIdx) (down : Bool) : (s.setKey k down).mem = s.mem := rfl
@[simp] theorem State.setKey_runState (k : KeyIdx) (down : Bool) : (s.setKey k down).runState = s.runState := rfl
@[simp] theorem State.setKey_rngPos (k : KeyIdx) (down : Bool) : (s.setKey k down).rngPos = s.rngPos := rfl

@[simp] theorem State.setFb_v (f : Framebuffer) : (s.setFb f).v = s.v := rfl
@[simp] theorem State.setFb_i (f : Framebuffer) : (s.setFb f).i = s.i := rfl
@[simp] theorem State.setFb_pc (f : Framebuffer) : (s.setFb f).pc = s.pc := rfl
@[simp] theorem State.setFb_stack (f : Framebuffer) : (s.setFb f).stack = s.stack := rfl
@[simp] theorem State.setFb_sp (f : Framebuffer) : (s.setFb f).sp = s.sp := rfl
@[simp] theorem State.setFb_dt (f : Framebuffer) : (s.setFb f).dt = s.dt := rfl
@[simp] theorem State.setFb_st (f : Framebuffer) : (s.setFb f).st = s.st := rfl
@[simp] theorem State.setFb_keys (f : Framebuffer) : (s.setFb f).keys = s.keys := rfl
@[simp] theorem State.setFb_fb (f : Framebuffer) : (s.setFb f).fb = f := rfl
@[simp] theorem State.setFb_mem (f : Framebuffer) : (s.setFb f).mem = s.mem := rfl
@[simp] theorem State.setFb_runState (f : Framebuffer) : (s.setFb f).runState = s.runState := rfl
@[simp] theorem State.setFb_rngPos (f : Framebuffer) : (s.setFb f).rngPos = s.rngPos := rfl

@[simp] theorem State.setMem_v (m : Memory) : (s.setMem m).v = s.v := rfl
@[simp] theorem State.setMem_i (m : Memory) : (s.setMem m).i = s.i := rfl
@[simp] theorem State.setMem_pc (m : Memory) : (s.setMem m).pc = s.pc := rfl
@[simp] theorem State.setMem_stack (m : Memory) : (s.setMem m).stack = s.stack := rfl
@[simp] theorem State.setMem_sp (m : Memory) : (s.setMem m).sp = s.sp := rfl
@[simp] theorem State.setMem_dt (m : Memory) : (s.setMem m).dt = s.dt := rfl
@[simp] theorem State.setMem_st (m : Memory) : (s.setMem m).st = s.st := rfl
@[simp] theorem State.setMem_keys (m : Memory) : (s.setMem m).keys = s.keys := rfl
@[simp] theorem State.setMem_fb (m : Memory) : (s.setMem m).fb = s.fb := rfl
@[simp] theorem State.setMem_mem (m : Memory) : (s.setMem m).mem = m := rfl
@[simp] theorem State.setMem_runState (m : Memory) : (s.setMem m).runState = s.runState := rfl
@[simp] theorem State.setMem_rngPos (m : Memory) : (s.setMem m).rngPos = s.rngPos := rfl

@[simp] theorem State.setRunState_v (r : RunState) : (s.setRunState r).v = s.v := rfl
@[simp] theorem State.setRunState_i (r : RunState) : (s.setRunState r).i = s.i := rfl
@[simp] theorem State.setRunState_pc (r : RunState) : (s.setRunState r).pc = s.pc := rfl
@[simp] theorem State.setRunState_stack (r : RunState) : (s.setRunState r).stack = s.stack := rfl
@[simp] theorem State.setRunState_sp (r : RunState) : (s.setRunState r).sp = s.sp := rfl
@[simp] theorem State.setRunState_dt (r : RunState) : (s.setRunState r).dt = s.dt := rfl
@[simp] theorem State.setRunState_st (r : RunState) : (s.setRunState r).st = s.st := rfl
@[simp] theorem State.setRunState_keys (r : RunState) : (s.setRunState r).keys = s.keys := rfl
@[simp] theorem State.setRunState_fb (r : RunState) : (s.setRunState r).fb = s.fb := rfl
@[simp] theorem State.setRunState_mem (r : RunState) : (s.setRunState r).mem = s.mem := rfl
@[simp] theorem State.setRunState_runState (r : RunState) : (s.setRunState r).runState = r := rfl
@[simp] theorem State.setRunState_rngPos (r : RunState) : (s.setRunState r).rngPos = s.rngPos := rfl

@[simp] theorem State.advance_v : (s.advance).v = s.v := rfl
@[simp] theorem State.advance_i : (s.advance).i = s.i := rfl
@[simp] theorem State.advance_pc : (s.advance).pc = s.pc + 2 := rfl
@[simp] theorem State.advance_stack : (s.advance).stack = s.stack := rfl
@[simp] theorem State.advance_sp : (s.advance).sp = s.sp := rfl
@[simp] theorem State.advance_dt : (s.advance).dt = s.dt := rfl
@[simp] theorem State.advance_st : (s.advance).st = s.st := rfl
@[simp] theorem State.advance_keys : (s.advance).keys = s.keys := rfl
@[simp] theorem State.advance_fb : (s.advance).fb = s.fb := rfl
@[simp] theorem State.advance_mem : (s.advance).mem = s.mem := rfl
@[simp] theorem State.advance_runState : (s.advance).runState = s.runState := rfl
@[simp] theorem State.advance_rngPos : (s.advance).rngPos = s.rngPos := rfl

@[simp] theorem State.skipIf_v (c : Bool) : (s.skipIf c).v = s.v := by cases c <;> rfl
@[simp] theorem State.skipIf_i (c : Bool) : (s.skipIf c).i = s.i := by cases c <;> rfl
@[simp] theorem State.skipIf_pc (c : Bool) : (s.skipIf c).pc = if c then s.pc + 2 else s.pc := by cases c <;> rfl
@[simp] theorem State.skipIf_stack (c : Bool) : (s.skipIf c).stack = s.stack := by cases c <;> rfl
@[simp] theorem State.skipIf_sp (c : Bool) : (s.skipIf c).sp = s.sp := by cases c <;> rfl
@[simp] theorem State.skipIf_dt (c : Bool) : (s.skipIf c).dt = s.dt := by cases c <;> rfl
@[simp] theorem State.skipIf_st (c : Bool) : (s.skipIf c).st = s.st := by cases c <;> rfl
@[simp] theorem State.skipIf_keys (c : Bool) : (s.skipIf c).keys = s.keys := by cases c <;> rfl
@[simp] theorem State.skipIf_fb (c : Bool) : (s.skipIf c).fb = s.fb := by cases c <;> rfl
@[simp] theorem State.skipIf_mem (c : Bool) : (s.skipIf c).mem = s.mem := by cases c <;> rfl
@[simp] theorem State.skipIf_runState (c : Bool) : (s.skipIf c).runState = s.runState := by cases c <;> rfl
@[simp] theorem State.skipIf_rngPos (c : Bool) : (s.skipIf c).rngPos = s.rngPos := by cases c <;> rfl

@[simp] theorem nextRandom_byte : (nextRandom s).1 = Config.rngStream s.rngPos := rfl
@[simp] theorem nextRandom_v : (nextRandom s).2.v = s.v := rfl
@[simp] theorem nextRandom_i : (nextRandom s).2.i = s.i := rfl
@[simp] theorem nextRandom_pc : (nextRandom s).2.pc = s.pc := rfl
@[simp] theorem nextRandom_stack : (nextRandom s).2.stack = s.stack := rfl
@[simp] theorem nextRandom_sp : (nextRandom s).2.sp = s.sp := rfl
@[simp] theorem nextRandom_dt : (nextRandom s).2.dt = s.dt := rfl
@[simp] theorem nextRandom_st : (nextRandom s).2.st = s.st := rfl
@[simp] theorem nextRandom_keys : (nextRandom s).2.keys = s.keys := rfl
@[simp] theorem nextRandom_fb : (nextRandom s).2.fb = s.fb := rfl
@[simp] theorem nextRandom_mem : (nextRandom s).2.mem = s.mem := rfl
@[simp] theorem nextRandom_runState : (nextRandom s).2.runState = s.runState := rfl
@[simp] theorem nextRandom_rngPos : (nextRandom s).2.rngPos = s.rngPos + 1 := rfl

@[simp] theorem State.readV_eq (x : RegIdx) : s.readV x = s.v[x] := rfl

/-- A register read after one write: the written register holds the value, every other its own. -/
theorem State.getElem_writeV (x r : RegIdx) (b : Byte) :
    (s.writeV x b).v[r] = if r = x then b else s.v[r] := by
  simp only [State.writeV_v, Fin.getElem_fin, Vector.getElem_set, Fin.ext_iff, eq_comm]

/-- A register read after the flag write and the result write: the result wins where both name VF. -/
theorem State.getElem_writeFlagThenV (x r : RegIdx) (flag b : Byte) :
    (s.writeFlagThenV x flag b).v[r] = if r = x then b else if r = VF then flag else s.v[r] := by
  simp only [State.writeFlagThenV_v, Fin.getElem_fin, Vector.getElem_set, Fin.ext_iff, eq_comm]

/-- A key read after `set_key`. -/
theorem State.getElem_setKey (k j : KeyIdx) (down : Bool) :
    (s.setKey k down).keys[j] = if j = k then down else s.keys[j] := by
  simp only [State.setKey_keys, Fin.getElem_fin, Vector.getElem_set, Fin.ext_iff, eq_comm]

end Sys2Proof.Machine
end

