-- ==== Sys2Proof/Laws/Ops.lean ====
section
/-! SUPPORT. One lemma for each shared operation that says what it can do; proofs cite it in place of the definition. -/

namespace Sys2Proof.Machine

@[simp] theorem inBounds_iff (a : Nat) : inBounds a = true ↔ a ≤ 0xFFF := by
  unfold inBounds
  exact decide_eq_true_iff

/-- What a checked effect answers: the effect, or the fault with none of it. -/
theorem check_eq_next {c : Bool} {f : FaultKind} {s t u : State} :
    check c f s t = .next u ↔ (c = true ∧ u = t) ∨ (c = false ∧ u = s.setRunState (.halted f)) := by
  cases c <;> simp [check, raise, eq_comm]

@[simp] theorem check_true (f : FaultKind) (s t : State) : check true f s t = .next t := rfl

@[simp] theorem check_false (f : FaultKind) (s t : State) :
    check false f s t = .next (s.setRunState (.halted f)) := rfl

/-- A push succeeds exactly when SP < 16, and then writes one entry and SP. -/
theorem State.push_of_lt (s : State) (w : Word) (h : s.sp.val < 16) :
    s.push w = some { s with stack := s.stack.set s.sp.val w h, sp := ⟨s.sp.val + 1, by omega⟩ } :=
  dif_pos h

theorem State.push_full (s : State) (w : Word) (h : s.sp.val = 16) : s.push w = none :=
  dif_neg (by omega)

/-- A pop succeeds exactly when SP > 0, and then writes SP alone. -/
theorem State.pop_of_pos (s : State) (h : 0 < s.sp.val) :
    s.pop = some (s.stack[s.sp.val - 1]'(by omega), { s with sp := ⟨s.sp.val - 1, by omega⟩ }) :=
  dif_pos h

theorem State.pop_empty (s : State) (h : s.sp.val = 0) : s.pop = none :=
  dif_neg (by omega)

/-- The registers after a load of V0 to V[x]. -/
theorem getElem_loadedRegs (m : Memory) (a : Nat) (x r : RegIdx) (v : Vector Byte 16) :
    (loadedRegs m a x v)[r] = if r ≤ x then m.read (a + r.val) else v[r] := by
  simp [loadedRegs]

theorem length_regsUpTo (v : Vector Byte 16) (x : RegIdx) : (regsUpTo v x).length = x.val + 1 := by
  simp [regsUpTo]

/-- Byte k of the bytes `store-regs` stores is V[k]. -/
theorem getD_regsUpTo (v : Vector Byte 16) (x r : RegIdx) (h : r ≤ x) :
    (regsUpTo v x).getD r.val 0 = v[r] := by
  have hr : r.val < x.val + 1 := Nat.lt_succ_of_le h
  simp [regsUpTo, List.getD_eq_getElem?_getD, hr]

/-- The least key that is down is found. -/
theorem firstKeyDown_eq_some {keys : Vector Bool 16} {k : KeyIdx} :
    firstKeyDown keys = some k ↔ keys[k] = true ∧ ∀ j < k, keys[j] = false := by
  unfold firstKeyDown
  rw [List.find?_eq_some_iff_getElem]
  constructor
  · rintro ⟨hk, i, hi, rfl, hlt⟩
    refine ⟨hk, fun j hj => ?_⟩
    have := hlt j.val (by simpa [Fin.lt_def] using hj)
    simpa using this
  · rintro ⟨hk, hlt⟩
    refine ⟨hk, k.val, by simp, by simp, fun j hj => ?_⟩
    have := hlt ⟨j, by omega⟩ hj
    simpa using this

theorem firstKeyDown_eq_none {keys : Vector Bool 16} :
    firstKeyDown keys = none ↔ ∀ k : KeyIdx, keys[k] = false := by
  simp [firstKeyDown]

/-- The cycle of each run state. -/
theorem cycle_running (s : State) (h : s.runState = .running) : cycle s = cycleRunning s := by
  simp [cycle, h]

theorem cycle_waiting (s : State) (t : RegIdx) (h : s.runState = .waitingForKey t) :
    cycle s = cycleWaiting t s := by
  simp [cycle, h]

theorem cycle_halted (s : State) (f : FaultKind) (h : s.runState = .halted f) : cycle s = .next s := by
  simp [cycle, h]

/-- The Running-state step: it executes the decoded instruction, or takes the fault of the decode or of the fetch. -/
theorem cycleRunning_of_decode {s : State} {i : Instr} (hb : s.pc.toNat + 1 ≤ 0xFFF)
    (hd : decode (fetchWord s) = .ok i) : cycleRunning s = exec i s.advance := by
  simp [cycleRunning, fetchInBounds, hb, hd]

theorem cycleRunning_of_illegal {s : State} {e : DecodeError} (hb : s.pc.toNat + 1 ≤ 0xFFF)
    (hd : decode (fetchWord s) = .error e) : cycleRunning s = raise .unknownOpcode s.advance := by
  simp [cycleRunning, fetchInBounds, hb, hd]

theorem cycleRunning_of_outOfBounds {s : State} (hb : ¬ s.pc.toNat + 1 ≤ 0xFFF) :
    cycleRunning s = raise .outOfBounds s := by
  simp [cycleRunning, fetchInBounds, hb]

end Sys2Proof.Machine
end

