-- ==== Sys2Proof/Laws/Exec.lean ====
section
/-! SUPPORT. Which pieces of state each instruction may touch, and the frame of `exec`: nothing else changes. -/

namespace Sys2Proof.Machine

/-- The pieces of state an instruction may touch; `runState` where its own check can fault. -/
def touches : Instr → List Part
  | .clearScreen => [.fb]
  | .ret => [.pc, .sp, .runState]
  | .jump _ => [.pc]
  | .call _ => [.pc, .sp, .stack, .runState]
  | .skipEqImm _ _ => [.pc]
  | .skipNeImm _ _ => [.pc]
  | .skipEqReg _ _ => [.pc]
  | .loadImm _ _ => [.v]
  | .addImm _ _ => [.v]
  | .loadReg _ _ => [.v]
  | .orReg _ _ => [.v]
  | .andReg _ _ => [.v]
  | .xorReg _ _ => [.v]
  | .addReg _ _ => [.v]
  | .subReg _ _ => [.v]
  | .shr _ => [.v]
  | .subn _ _ => [.v]
  | .shl _ => [.v]
  | .skipNeReg _ _ => [.pc]
  | .loadIndex _ => [.i]
  | .jumpOffset _ => [.pc]
  | .random _ _ => [.v, .rngPos]
  | .draw _ _ _ => [.v, .fb, .runState]
  | .skipKeyDown _ => [.pc]
  | .skipKeyUp _ => [.pc]
  | .loadDelay _ => [.v]
  | .waitKey _ => [.runState]
  | .setDelay _ => [.dt]
  | .setSound _ => [.st]
  | .addIndex _ => [.i]
  | .loadFontAddr _ => [.i]
  | .storeBcd _ => [.mem, .runState]
  | .storeRegs _ => [.mem, .runState]
  | .loadRegs _ => [.v, .runState]

/-- A checked effect touches what the effect touches, or the run state alone. -/
theorem sameExcept_check {c : Bool} {f : FaultKind} {s t u : State} {ps : List Part} (h : check c f s t = .next u)
    (ht : SameExcept ps s t) (hr : Part.runState ∈ ps) : SameExcept ps s u := by
  obtain ⟨-, rfl⟩ | ⟨-, rfl⟩ := check_eq_next.mp h
  · exact ht
  · constructor <;> intros <;> first | rfl | contradiction

/-- The frame of `exec`: outside the pieces an instruction touches, its next state is the old one. -/
theorem exec_sameExcept {i : Instr} {s t : State} (h : exec i s = .next t) : SameExcept (touches i) s t := by
  cases i with
  | ret =>
    by_cases hp : 0 < s.sp.val
    · simp only [exec, execRet, State.pop_of_pos s hp, Host.Outcome.next.injEq] at h
      subst h
      constructor <;> simp [touches]
    · simp only [exec, execRet, State.pop_empty s (by omega), raise, Host.Outcome.next.injEq] at h
      subst h
      constructor <;> simp [touches]
  | call nnn =>
    by_cases hp : s.sp.val < 16
    · simp only [exec, execCall, State.push_of_lt s _ hp, Host.Outcome.next.injEq] at h
      subst h
      constructor <;> simp [touches]
    · simp only [exec, execCall, State.push_full s _ (by omega), raise, Host.Outcome.next.injEq] at h
      subst h
      constructor <;> simp [touches]
  | draw x y n => exact sameExcept_check h (by constructor <;> simp [touches]) (by simp [touches])
  | storeBcd x => exact sameExcept_check h (by constructor <;> simp [touches]) (by simp [touches])
  | storeRegs x => exact sameExcept_check h (by constructor <;> simp [touches]) (by simp [touches])
  | loadRegs x => exact sameExcept_check h (by constructor <;> simp [touches]) (by simp [touches])
  | clearScreen => cases h; constructor <;> simp [touches]
  | jump nnn => cases h; constructor <;> simp [touches]
  | skipEqImm x nn => cases h; constructor <;> simp [touches]
  | skipNeImm x nn => cases h; constructor <;> simp [touches]
  | skipEqReg x y => cases h; constructor <;> simp [touches]
  | loadImm x nn => cases h; constructor <;> simp [touches]
  | addImm x nn => cases h; constructor <;> simp [touches]
  | loadReg x y => cases h; constructor <;> simp [touches]
  | orReg x y => cases h; constructor <;> simp [touches]
  | andReg x y => cases h; constructor <;> simp [touches]
  | xorReg x y => cases h; constructor <;> simp [touches]
  | addReg x y => cases h; constructor <;> simp [touches]
  | subReg x y => cases h; constructor <;> simp [touches]
  | shr x => cases h; constructor <;> simp [touches]
  | subn x y => cases h; constructor <;> simp [touches]
  | shl x => cases h; constructor <;> simp [touches]
  | skipNeReg x y => cases h; constructor <;> simp [touches]
  | loadIndex nnn => cases h; constructor <;> simp [touches]
  | jumpOffset nnn => cases h; constructor <;> simp [touches]
  | random x nn => cases h; constructor <;> simp [touches]
  | skipKeyDown x => cases h; constructor <;> simp [touches]
  | skipKeyUp x => cases h; constructor <;> simp [touches]
  | loadDelay x => cases h; constructor <;> simp [touches]
  | waitKey x => cases h; constructor <;> simp [touches]
  | setDelay x => cases h; constructor <;> simp [touches]
  | setSound x => cases h; constructor <;> simp [touches]
  | addIndex x => cases h; constructor <;> simp [touches]
  | loadFontAddr x => cases h; constructor <;> simp [touches]

end Sys2Proof.Machine
end

