-- ==== Sys2Proof/Laws/Flags.lean ====
section
/-! SUPPORT. The operand and flag computations as numbers (42_register_alu.md R120, R133). -/

namespace Sys2Proof.Machine

theorem addressOf_toNat (nnn : BitVec 12) : (addressOf nnn).toNat = nnn.toNat := by
  have := nnn.isLt
  simp only [addressOf, BitVec.toNat_setWidth]
  omega

theorem widen_toNat (b : Byte) : (widen b).toNat = b.toNat := by
  have := b.isLt
  simp only [widen, BitVec.toNat_setWidth]
  omega

/-- The target of `jump-offset` is the exact sum: 16 bits hold it (41_control_flow.md R108). -/
theorem offsetTarget_toNat (nnn : BitVec 12) (v0 : Byte) : (offsetTarget nnn v0).toNat = nnn.toNat + v0.toNat := by
  have := nnn.isLt
  have := v0.isLt
  rw [offsetTarget, BitVec.toNat_add, addressOf_toNat, widen_toNat]
  omega

theorem flagOf_toNat (c : Bool) : (flagOf c).toNat = if c then 1 else 0 := by
  cases c <;> rfl

theorem sumByte_toNat (a b : Byte) : (sumByte a b).toNat = (a.toNat + b.toNat) % 256 :=
  BitVec.toNat_ofNat ..

theorem diffByte_toNat (a b : Byte) : (diffByte a b).toNat = (a.toNat + 256 - b.toNat) % 256 :=
  BitVec.toNat_ofNat ..

theorem shiftedRight_toNat (a : Byte) : (shiftedRight a).toNat = a.toNat / 2 := by
  simp [shiftedRight, Nat.shiftRight_eq_div_pow]

theorem shiftedLeft_toNat (a : Byte) : (shiftedLeft a).toNat = 2 * a.toNat % 256 := by
  simp [shiftedLeft, Nat.shiftLeft_eq, Nat.mul_comm]

theorem lowBitFlag_toNat (a : Byte) : (lowBitFlag a).toNat = a.toNat % 2 := by
  simp [lowBitFlag, Nat.and_one_is_mod]

theorem highBitFlag_toNat (a : Byte) : (highBitFlag a).toNat = a.toNat / 128 := by
  have := a.isLt
  simp only [highBitFlag, BitVec.toNat_and, BitVec.toNat_ushiftRight, Nat.shiftRight_eq_div_pow]
  rw [show BitVec.toNat (1 : Byte) = 1 from rfl, Nat.and_one_is_mod]
  omega

@[simp] theorem length_bcdDigits (b : Byte) : (bcdDigits b).length = 3 := rfl

end Sys2Proof.Machine
end

