-- ==== Sys2Proof/Laws/Memory.lean ====
section
/-! SUPPORT. The laws of memory: a read after a write, and the canonical form kept by every operation. -/

namespace Sys2Proof.Machine

/-- Reading through a cell put in front. -/
theorem Memory.read_cons (a a' : Nat) (b : Byte) (m : Memory) (hm : ∀ c ∈ m, a < c.1) :
    Memory.read (Memory.cons a b m) a' = if a' = a then b else m.read a' := by
  unfold Memory.cons
  by_cases hb : b = resetByte a
  · rw [if_pos hb]
    by_cases ha : a' = a
    · subst ha
      rw [if_pos rfl, hb]
      clear hb
      induction m with
      | nil => rfl
      | cons c m ih =>
        have h := hm c (by simp)
        rw [Memory.read, if_neg (by omega)]
        exact ih fun d hd => hm d (by simp [hd])
    · rw [if_neg ha]
  · rw [if_neg hb, Memory.read]

/-- A byte read after a byte written: the written value at the written address, every other byte as before. -/
theorem Memory.read_write (m : Memory) (a a' : Nat) (b : Byte) (hm : m.Pairwise (fun c d => c.1 < d.1)) :
    (m.write a b).read a' = if a' = a then b else m.read a' := by
  induction m with
  | nil => exact Memory.read_cons a a' b [] (by simp)
  | cons c m ih =>
    rw [List.pairwise_cons] at hm
    simp only [Memory.write]
    split
    · next h =>
      exact Memory.read_cons a a' b (c :: m) fun d hd => by
        rcases List.mem_cons.mp hd with rfl | hd
        · exact h
        · exact Nat.lt_trans h (hm.1 d hd)
    · split
      · next h =>
        rw [Memory.read_cons a a' b m fun d hd => h ▸ hm.1 d hd, Memory.read]
        by_cases ha : a' = c.1 <;> simp [ha, h]
      · next h =>
        rw [Memory.read, ih hm.2, Memory.read]
        by_cases ha : a' = c.1
        · simp [ha, Ne.symm h]
        · simp [ha]

/-- Where a written memory's cells come from. -/
theorem Memory.mem_write {m : Memory} {a : Nat} {b : Byte} {c : Host.Cell} (h : c ∈ m.write a b) :
    c ∈ m ∨ (c = (a, b) ∧ b ≠ resetByte a) := by
  have hcons : ∀ (m : Memory) (c : Host.Cell), c ∈ Memory.cons a b m → c ∈ m ∨ (c = (a, b) ∧ b ≠ resetByte a) := by
    intro m c hc
    unfold Memory.cons at hc
    split at hc
    · exact .inl hc
    · next hb => rcases List.mem_cons.mp hc with rfl | hc
                 · exact .inr ⟨rfl, hb⟩
                 · exact .inl hc
  induction m with
  | nil => exact hcons [] c h
  | cons d m ih =>
    simp only [Memory.write] at h
    split at h
    · exact hcons _ _ h
    · split at h
      · rcases hcons _ _ h with h | h
        · exact .inl (List.mem_cons_of_mem _ h)
        · exact .inr h
      · rcases List.mem_cons.mp h with rfl | h
        · exact .inl (by simp)
        · rcases ih h with h | h
          · exact .inl (List.mem_cons_of_mem _ h)
          · exact .inr h

/-- The order of the cells alone is kept by every write, in bounds or not. -/
theorem Memory.write_sorted {m : Memory} {a : Nat} {b : Byte} (hm : m.Pairwise (fun c d => c.1 < d.1)) :
    (m.write a b).Pairwise (fun c d => c.1 < d.1) := by
  have hcons : ∀ m : Memory, m.Pairwise (fun c d => c.1 < d.1) → (∀ c ∈ m, a < c.1) →
      (Memory.cons a b m).Pairwise (fun c d => c.1 < d.1) := by
    intro m h1 h2
    unfold Memory.cons
    split
    · exact h1
    · exact List.pairwise_cons.mpr ⟨h2, h1⟩
  induction m with
  | nil => exact hcons [] .nil (by simp)
  | cons d m ih =>
    have hd := List.pairwise_cons.mp hm
    simp only [Memory.write]
    split
    · next h =>
      exact hcons _ hm fun c hc => by
        rcases List.mem_cons.mp hc with rfl | hc
        · exact h
        · exact Nat.lt_trans h (hd.1 c hc)
    · split
      · next h => exact hcons _ hd.2 fun c hc => h ▸ hd.1 c hc
      · next h1 h2 =>
        refine List.pairwise_cons.mpr ⟨fun c hc => ?_, ih hd.2⟩
        rcases Memory.mem_write hc with hc | ⟨rfl, -⟩
        · exact hd.1 c hc
        · show d.1 < a
          omega

/-- A write keeps the canonical form. -/
theorem Memory.write_wf {m : Memory} {a : Nat} {b : Byte} (hm : m.wf) (ha : a < Config.memSize) :
    (m.write a b).wf := by
  refine ⟨Memory.write_sorted hm.1, fun c hc => ?_⟩
  rcases Memory.mem_write hc with hc | ⟨rfl, hb⟩
  · exact hm.2 c hc
  · exact ⟨ha, hb⟩

/-- Storing a list of bytes keeps the canonical form. -/
theorem Memory.writeBytes_wf {m : Memory} {a : Nat} {bs : List Byte} (hm : m.wf)
    (ha : a + bs.length ≤ Config.memSize) : (m.writeBytes a bs).wf := by
  induction bs generalizing m a with
  | nil => exact hm
  | cons b bs ih =>
    rw [List.length_cons] at ha
    exact ih (Memory.write_wf hm (by omega)) (by omega)

/-- A byte read after a list of bytes stored: the list's byte inside it, every other byte as before. -/
theorem Memory.read_writeBytes (m : Memory) (a a' : Nat) (bs : List Byte)
    (hm : m.Pairwise (fun c d => c.1 < d.1)) :
    (m.writeBytes a bs).read a' =
      if a ≤ a' ∧ a' < a + bs.length then bs.getD (a' - a) 0 else m.read a' := by
  induction bs generalizing m a with
  | nil => rw [Memory.writeBytes, if_neg (by simp)]
  | cons b bs ih =>
    rw [Memory.writeBytes, ih _ _ (Memory.write_sorted hm), Memory.read_write _ _ _ _ hm, List.length_cons]
    by_cases h : a' = a
    · subst h
      rw [if_neg (by omega), if_pos rfl, if_pos (by omega)]
      simp
    · by_cases h1 : a + 1 ≤ a' ∧ a' < a + 1 + bs.length
      · rw [if_pos h1, if_pos (by omega), show a' - a = (a' - (a + 1)) + 1 by omega, List.getD_cons_succ]
      · rw [if_neg h1, if_neg h, if_neg (by omega)]

/-- The bytes read back are the bytes of memory from the address up. -/
theorem Memory.length_readBytes (m : Memory) (a n : Nat) : (m.readBytes a n).length = n := by
  simp [Memory.readBytes]

/-- Memory after reset is in canonical form. -/
theorem Memory.reset_wf : State.reset.mem.wf := by
  exact ⟨.nil, by simp [State.reset]⟩

end Sys2Proof.Machine
end

