-- ==== Sys2Proof/Laws/Host.lean ====
section
/-! SUPPORT. What the host's operations do (60_exceptions.md R245), and what a step does in each run state. -/

namespace Sys2Proof.Machine

@[simp] theorem programFits_iff (bytes : List Byte) :
    programFits bytes = true ↔ Config.programBase + bytes.length ≤ Config.memSize := by
  unfold programFits
  exact decide_eq_true_iff

/-- The memory a load leaves, byte by byte (20_memory.md R55). -/
theorem read_loadMemory (bytes : List Byte) (a : Nat) :
    (loadMemory bytes).read a =
      if Config.programBase ≤ a ∧ a < Config.programBase + bytes.length
      then bytes.getD (a - Config.programBase) 0 else resetByte a :=
  Memory.read_writeBytes [] _ a bytes .nil

/-- The memory a load leaves is in canonical form. -/
theorem loadMemory_wf {bytes : List Byte} (h : programFits bytes = true) : (loadMemory bytes).wf :=
  Memory.writeBytes_wf Memory.reset_wf ((programFits_iff bytes).mp h)

theorem tickByte_toNat (b : Byte) : (tickByte b).toNat = b.toNat - 1 := by
  have := b.isLt
  simp only [tickByte, BitVec.toNat_ofNat]
  omega

/-- What a running step does: a fetch fault, a decode fault after the advance, or the decoded instruction. -/
theorem step_running_cases {s t : State} (hr : s.runState = .running) (h : step s = .next t) :
    (0xFFF < s.pc.toNat + 1 ∧ t = s.setRunState (.halted .outOfBounds)) ∨
    (s.pc.toNat + 1 ≤ 0xFFF ∧ (∃ e, decode (fetchWord s) = .error e) ∧
      t = s.advance.setRunState (.halted .unknownOpcode)) ∨
    (s.pc.toNat + 1 ≤ 0xFFF ∧ ∃ i, decode (fetchWord s) = .ok i ∧ exec i s.advance = .next t) := by
  rw [step, cycle_running s hr] at h
  by_cases hb : s.pc.toNat + 1 ≤ 0xFFF
  · rcases hd : decode (fetchWord s) with e | i
    · rw [cycleRunning_of_illegal hb hd, raise, Host.Outcome.next.injEq] at h
      exact .inr (.inl ⟨hb, ⟨e, rfl⟩, h.symm⟩)
    · rw [cycleRunning_of_decode hb hd] at h
      exact .inr (.inr ⟨hb, i, rfl, h⟩)
  · rw [cycleRunning_of_outOfBounds hb, raise, Host.Outcome.next.injEq] at h
    exact .inl ⟨by omega, h.symm⟩

/-- What a waiting step does: it takes the least key that is down, or changes nothing. -/
theorem step_waiting_cases {s t : State} {x : RegIdx} (hr : s.runState = .waitingForKey x) (h : step s = .next t) :
    (∃ k, firstKeyDown s.keys = some k ∧ t = (s.writeV x (BitVec.ofNat 8 k.val)).setRunState .running) ∨
    (firstKeyDown s.keys = none ∧ t = s) := by
  rw [step, cycle_waiting s x hr, cycleWaiting] at h
  split at h
  · next k hk => exact .inl ⟨k, hk, (Host.Outcome.next.inj h).symm⟩
  · next hk => exact .inr ⟨hk, (Host.Outcome.next.inj h).symm⟩

/-- A halted step changes nothing. -/
theorem step_halted {s : State} {f : FaultKind} (hr : s.runState = .halted f) : step s = .next s := by
  rw [step, cycle_halted s f hr]

end Sys2Proof.Machine
end

