-- ==== Sys2Proof/Laws/PerInstr.lean ====
section
/-! SUPPORT. Per instruction: the encoded word matches the instruction's row of the opcode table (30_encoding.md R75). -/

namespace Sys2Proof

/-! ## A word under the table's masks -/

section
variable (c : BitVec 4) (x y : RegIdx) (n : BitVec 4) (nn : Byte) (nnn : BitVec 12)

/-- A class nibble and a register, under a mask of the class nibble. -/
theorem class_and : (c ++ nibbleOfReg x) &&& (0xF0 : BitVec 8) = c ++ nibbleOfReg 0 :=
  (BitVec.and_append (x₂ := (0xF : BitVec 4)) (y₂ := (0 : BitVec 4))).trans
    (congrArg₂ (· ++ ·) BitVec.and_allOnes BitVec.and_zero)

/-- A class nibble and two registers, under a mask of the class nibble. -/
theorem class_and_and : (c ++ nibbleOfReg x ++ nibbleOfReg y) &&& (0xF00 : BitVec 12) =
    c ++ nibbleOfReg 0 ++ nibbleOfReg 0 :=
  (BitVec.and_append (x₂ := (0xF0 : BitVec 8)) (y₂ := (0 : BitVec 4))).trans
    (congrArg₂ (· ++ ·) (class_and c x) BitVec.and_zero)

theorem wordNNN_and_class : wordNNN c nnn &&& 0xF000 = wordNNN c 0 :=
  (BitVec.and_append (x₂ := (0xF : BitVec 4)) (y₂ := (0 : BitVec 12))).trans
    (congrArg₂ (· ++ ·) BitVec.and_allOnes BitVec.and_zero)

theorem wordXNN_and_class : wordXNN c x nn &&& 0xF000 = wordXNN c 0 0 :=
  (BitVec.and_append (x₂ := (0xF0 : BitVec 8)) (y₂ := (0 : BitVec 8))).trans
    (congrArg₂ (· ++ ·) (class_and c x) BitVec.and_zero)

theorem wordXNN_and_low : wordXNN c x nn &&& 0xF0FF = wordXNN c 0 nn :=
  (BitVec.and_append (x₂ := (0xF0 : BitVec 8)) (y₂ := (0xFF : BitVec 8))).trans
    (congrArg₂ (· ++ ·) (class_and c x) BitVec.and_allOnes)

theorem wordXYN_and_class : wordXYN c x y n &&& 0xF000 = wordXYN c 0 0 0 :=
  (BitVec.and_append (x₂ := (0xF00 : BitVec 12)) (y₂ := (0 : BitVec 4))).trans
    (congrArg₂ (· ++ ·) (class_and_and c x y) BitVec.and_zero)

theorem wordXYN_and_low : wordXYN c x y n &&& 0xF00F = wordXYN c 0 0 n :=
  (BitVec.and_append (x₂ := (0xF00 : BitVec 12)) (y₂ := (0xF : BitVec 4))).trans
    (congrArg₂ (· ++ ·) (class_and_and c x y) BitVec.and_allOnes)

end

namespace Laws.TableRow

/-- The instruction's word, under its row's mask, is its row's pattern. -/
def Statement (i : Instr) : Prop := encode i &&& i.mnemonic.row.mask = i.mnemonic.row.pattern

theorem clearScreen : Statement .clearScreen := rfl
theorem ret : Statement .ret := rfl
theorem jump (nnn : BitVec 12) : Statement (.jump nnn) := wordNNN_and_class _ _
theorem call (nnn : BitVec 12) : Statement (.call nnn) := wordNNN_and_class _ _
theorem skipEqImm (x : RegIdx) (nn : Byte) : Statement (.skipEqImm x nn) := wordXNN_and_class _ _ _
theorem skipNeImm (x : RegIdx) (nn : Byte) : Statement (.skipNeImm x nn) := wordXNN_and_class _ _ _
theorem skipEqReg (x : RegIdx) (y : RegIdx) : Statement (.skipEqReg x y) := wordXYN_and_low _ _ _ _
theorem loadImm (x : RegIdx) (nn : Byte) : Statement (.loadImm x nn) := wordXNN_and_class _ _ _
theorem addImm (x : RegIdx) (nn : Byte) : Statement (.addImm x nn) := wordXNN_and_class _ _ _
theorem loadReg (x : RegIdx) (y : RegIdx) : Statement (.loadReg x y) := wordXYN_and_low _ _ _ _
theorem orReg (x : RegIdx) (y : RegIdx) : Statement (.orReg x y) := wordXYN_and_low _ _ _ _
theorem andReg (x : RegIdx) (y : RegIdx) : Statement (.andReg x y) := wordXYN_and_low _ _ _ _
theorem xorReg (x : RegIdx) (y : RegIdx) : Statement (.xorReg x y) := wordXYN_and_low _ _ _ _
theorem addReg (x : RegIdx) (y : RegIdx) : Statement (.addReg x y) := wordXYN_and_low _ _ _ _
theorem subReg (x : RegIdx) (y : RegIdx) : Statement (.subReg x y) := wordXYN_and_low _ _ _ _
theorem shr (x : RegIdx) : Statement (.shr x) := wordXYN_and_low _ _ _ _
theorem subn (x : RegIdx) (y : RegIdx) : Statement (.subn x y) := wordXYN_and_low _ _ _ _
theorem shl (x : RegIdx) : Statement (.shl x) := wordXYN_and_low _ _ _ _
theorem skipNeReg (x : RegIdx) (y : RegIdx) : Statement (.skipNeReg x y) := wordXYN_and_low _ _ _ _
theorem loadIndex (nnn : BitVec 12) : Statement (.loadIndex nnn) := wordNNN_and_class _ _
theorem jumpOffset (nnn : BitVec 12) : Statement (.jumpOffset nnn) := wordNNN_and_class _ _
theorem random (x : RegIdx) (nn : Byte) : Statement (.random x nn) := wordXNN_and_class _ _ _
theorem draw (x : RegIdx) (y : RegIdx) (n : BitVec 4) : Statement (.draw x y n) := wordXYN_and_class _ _ _ _
theorem skipKeyDown (x : RegIdx) : Statement (.skipKeyDown x) := wordXNN_and_low _ _ _
theorem skipKeyUp (x : RegIdx) : Statement (.skipKeyUp x) := wordXNN_and_low _ _ _
theorem loadDelay (x : RegIdx) : Statement (.loadDelay x) := wordXNN_and_low _ _ _
theorem waitKey (x : RegIdx) : Statement (.waitKey x) := wordXNN_and_low _ _ _
theorem setDelay (x : RegIdx) : Statement (.setDelay x) := wordXNN_and_low _ _ _
theorem setSound (x : RegIdx) : Statement (.setSound x) := wordXNN_and_low _ _ _
theorem addIndex (x : RegIdx) : Statement (.addIndex x) := wordXNN_and_low _ _ _
theorem loadFontAddr (x : RegIdx) : Statement (.loadFontAddr x) := wordXNN_and_low _ _ _
theorem storeBcd (x : RegIdx) : Statement (.storeBcd x) := wordXNN_and_low _ _ _
theorem storeRegs (x : RegIdx) : Statement (.storeRegs x) := wordXNN_and_low _ _ _
theorem loadRegs (x : RegIdx) : Statement (.loadRegs x) := wordXNN_and_low _ _ _

end Laws.TableRow

end Sys2Proof
end

