-- ==== Sys2Proof/Tests/Slice0.lean ====
section
/-! SUPPORT. The model's own tests: the well-formedness smoke, the decoding of words written out bit by bit from the
encodings of 30_encoding.md R75, one-step tests with the expected values of 95_test_vectors.md (the vector's name stands
in each docstring), and for every obligation with hypotheses a witness that meets them. -/

namespace Sys2Proof.Tests

open Sys2Proof.Machine

/-! ## Helpers -/

/-- Registers: those listed, the others 0. -/
def regs (l : List (RegIdx × Byte)) : Vector Byte 16 := l.foldl (fun v p => v.set p.1 p.2) (Vector.replicate 16 0)

/-- Keys: those listed are down. -/
def keysDown (l : List KeyIdx) : Vector Bool 16 := Vector.ofFn fun k => l.contains k

/-- Pixels: those listed are on. -/
def pixelsOn (l : List (Column × Row)) : Framebuffer := l.foldl (fun f p => setPixel f p.1 p.2 true) blankFramebuffer

/-- The word at an address, that address at pc, the rest as after construction (95_test_vectors.md). -/
def wordAt (a : Word) (w : Nat) : State := (State.reset.setPc a).withFetchWord 16 w

/-- The word at 0x200. -/
def word (w : Nat) : State := wordAt 0x200 w

/-- A state with bytes stored from an address up. -/
def withBytes (a : Nat) (bs : List Byte) (s : State) : State := s.setMem (s.mem.writeBytes a bs)

/-- What holds of the next state; false of a stop. -/
def after (r : Result) (p : State → Bool) : Bool :=
  match r with
  | .next t => p t
  | .fault _ => false
  | .refused _ => false

/-- A next state that has a decidable property, from evaluating it. -/
theorem next_with {r : Result} {P : State → Prop} [DecidablePred P] (h : after r (fun t => decide (P t)) = true) :
    ∃ t, r = .next t ∧ P t := by
  cases r with
  | next t => exact ⟨t, rfl, of_decide_eq_true h⟩
  | fault f => exact absurd h (by simp [after])
  | refused q => exact absurd h (by simp [after])

/-! ## Well-formedness: one ill-formed line for each check (30_encoding.md R90) -/

theorem test_wf_operand_count : assemble ⟨.jump, [.num 0x200, .num 1]⟩ = .error .wrongOperandCount := by decide
theorem test_wf_operand_kind : assemble ⟨.loadImm, [.num 3, .num 0x42]⟩ = .error .wrongOperandKind := by decide
theorem test_wf_register : assemble ⟨.addReg, [.reg 3, .reg 16]⟩ = .error .registerOutOfRange := by decide
theorem test_wf_address : assemble ⟨.call, [.num 0x1000]⟩ = .error .addressOutOfRange := by decide
theorem test_wf_immediate : assemble ⟨.skipEqImm, [.reg 15, .num 0x100]⟩ = .error .immediateOutOfRange := by decide
theorem test_wf_rows : assemble ⟨.draw, [.reg 0, .reg 1, .num 16]⟩ = .error .rowCountOutOfRange := by decide
theorem test_wf_bounds_are_legal :
    assemble ⟨.draw, [.reg 0, .reg 15, .num 15]⟩ = .ok (.draw 0 15 15) ∧
    assemble ⟨.jump, [.num 0xFFF]⟩ = .ok (.jump 0xFFF) ∧ assemble ⟨.shr, [.reg 0]⟩ = .ok (.shr 0) := by
  and_intros <;> decide

/-! ## Decoding: every row's word, bit by bit from its encoding (30_encoding.md R75) -/

theorem test_decode_control_flow :
    decode 0b0000000011101110 = .ok .ret ∧
    decode 0b0001_001000110100 = .ok (.jump 0x234) ∧
    decode 0b0010_100000000001 = .ok (.call 0x801) ∧
    decode 0b0011_1010_10000001 = .ok (.skipEqImm 10 0x81) ∧
    decode 0b0100_0101_01111110 = .ok (.skipNeImm 5 0x7E) ∧
    decode 0b0101_0001_1000_0000 = .ok (.skipEqReg 1 8) ∧
    decode 0b1001_1000_0001_0000 = .ok (.skipNeReg 8 1) ∧
    decode 0b1011_100000000001 = .ok (.jumpOffset 0x801) := by and_intros <;> decide

theorem test_decode_register_alu :
    decode 0b0110_0011_01000010 = .ok (.loadImm 3 0x42) ∧
    decode 0b0111_1100_10000001 = .ok (.addImm 12 0x81) ∧
    decode 0b1000_0001_1000_0000 = .ok (.loadReg 1 8) ∧
    decode 0b1000_0001_1000_0001 = .ok (.orReg 1 8) ∧
    decode 0b1000_0001_1000_0010 = .ok (.andReg 1 8) ∧
    decode 0b1000_0001_1000_0011 = .ok (.xorReg 1 8) ∧
    decode 0b1000_0001_1000_0100 = .ok (.addReg 1 8) ∧
    decode 0b1000_0001_1000_0101 = .ok (.subReg 1 8) ∧
    decode 0b1000_0001_1000_0110 = .ok (.shr 1) ∧
    decode 0b1000_0001_1000_0111 = .ok (.subn 1 8) ∧
    decode 0b1000_0001_1000_1110 = .ok (.shl 1) := by and_intros <;> decide

theorem test_decode_index_memory :
    decode 0b1010_100000000001 = .ok (.loadIndex 0x801) ∧
    decode 0b1111_1001_00011110 = .ok (.addIndex 9) ∧
    decode 0b1111_1001_00101001 = .ok (.loadFontAddr 9) ∧
    decode 0b1111_1001_00110011 = .ok (.storeBcd 9) ∧
    decode 0b1111_1001_01010101 = .ok (.storeRegs 9) ∧
    decode 0b1111_1001_01100101 = .ok (.loadRegs 9) := by and_intros <;> decide

theorem test_decode_display_timers_keypad :
    decode 0b0000000011100000 = .ok .clearScreen ∧
    decode 0b1101_0001_1000_0101 = .ok (.draw 1 8 5) ∧
    decode 0b1100_0011_00001111 = .ok (.random 3 0x0F) ∧
    decode 0b1111_1001_00000111 = .ok (.loadDelay 9) ∧
    decode 0b1111_1001_00010101 = .ok (.setDelay 9) ∧
    decode 0b1111_1001_00011000 = .ok (.setSound 9) ∧
    decode 0b1110_1001_10011110 = .ok (.skipKeyDown 9) ∧
    decode 0b1110_1001_10100001 = .ok (.skipKeyUp 9) ∧
    decode 0b1111_1001_00001010 = .ok (.waitKey 9) := by and_intros <;> decide

/-- Vectors F4 to F6, T17, T20, section 2.3's list, E10, E11. -/
theorem test_decode_illegal :
    decode 0x0123 = .error .unknownOpcode ∧ decode 0x0000 = .error .unknownOpcode ∧
    decode 0x00E1 = .error .unknownOpcode ∧ decode 0x5121 = .error .unknownOpcode ∧
    decode 0x9121 = .error .unknownOpcode ∧ decode 0x8008 = .error .unknownOpcode ∧
    decode 0x8009 = .error .unknownOpcode ∧ decode 0x800A = .error .unknownOpcode ∧
    decode 0x800B = .error .unknownOpcode ∧ decode 0x800C = .error .unknownOpcode ∧
    decode 0x800D = .error .unknownOpcode ∧ decode 0x800F = .error .unknownOpcode ∧
    decode 0xE000 = .error .unknownOpcode ∧ decode 0xF000 = .error .unknownOpcode := by
  and_intros <;> decide

theorem test_encode_examples :
    encode (.loadImm 3 0x42) = 0x6342 ∧ encode (.draw 1 2 5) = 0xD125 ∧ encode (.shr 4) = 0x8406 ∧
    encode (.shl 4) = 0x840E ∧ encode (.jumpOffset 0xFFF) = 0xBFFF := by and_intros <;> decide

theorem test_decode_bytes_leaves_the_rest :
    decodeBytes [0x63, 0x42, 0x99] = .ok (.loadImm 3 0x42, [0x99]) ∧ decodeBytes [0x63] = .error .truncated := by
  and_intros <;> decide

theorem test_table_words :
    decodeTableWord 16 0x8014 = some (.addReg 0 1) ∧ decodeTableWord 16 0x0123 = none ∧ opcodeTable.length = 34 := by
  and_intros <;> decide

/-! ## Fetch and run state -/

/-- F1 (W11). -/
theorem test_fetch_last_byte :
    after (step { State.reset with pc := 0xFFF }) (fun t => t.pc == 0xFFF && t.runState == .halted .outOfBounds) =
      true := by decide

/-- F2. -/
theorem test_fetch_last_word :
    after (step (wordAt 0xFFE 0x6001)) (fun t => t.pc == 0x1000 && t.v[0] == 1 && t.runState == .running) = true := by
  decide

/-- F4. -/
theorem test_illegal_word :
    after (step (word 0x0123)) (fun t => t.pc == 0x202 && t.runState == .halted .unknownOpcode) = true := by decide

/-- F7. -/
theorem test_halted_cycle :
    perform .cycle { word 0x6001 with runState := .halted .unknownOpcode } =
      .next ({ word 0x6001 with runState := .halted .unknownOpcode }, .fault (.ofCycle .unknownOpcode)) := by rfl

/-! ## Control flow -/

/-- T1. -/
theorem test_return :
    after (step { wordAt 0x214 0x00EE with sp := 1, stack := (Vector.replicate 16 0).set 0 0x20A })
      (fun t => t.pc == 0x20A && t.sp == 0 && t.stack[0] == 0x20A) = true := by decide

/-- T2. -/
theorem test_return_underflow :
    after (step (word 0x00EE))
      (fun t => t.pc == 0x202 && t.sp == 0 && t.runState == .halted .stackUnderflow) = true := by
  decide

/-- T4. -/
theorem test_jump : after (step (word 0x1234)) (fun t => t.pc == 0x234) = true := by decide

/-- T7. -/
theorem test_call :
    after (step (wordAt 0x208 0x2210)) (fun t => t.pc == 0x210 && t.sp == 1 && t.stack[0] == 0x20A) = true := by decide

/-- T9. -/
theorem test_call_overflow :
    after (step { word 0x2300 with sp := 16 })
      (fun t => t.pc == 0x202 && t.sp == 16 && t.runState == .halted .stackOverflow) = true := by decide

/-- T11, T12. -/
theorem test_skip_eq_imm :
    after (step { word 0x3342 with v := regs [(3, 0x42)] }) (fun t => t.pc == 0x204) = true ∧
    after (step { word 0x3342 with v := regs [(3, 0x41)] }) (fun t => t.pc == 0x202) = true := by and_intros <;> decide

/-- T13, T14. -/
theorem test_skip_ne_imm :
    after (step { word 0x4342 with v := regs [(3, 0x41)] }) (fun t => t.pc == 0x204) = true ∧
    after (step { word 0x4342 with v := regs [(3, 0x42)] }) (fun t => t.pc == 0x202) = true := by and_intros <;> decide

/-- T15, T16. -/
theorem test_skip_eq_reg :
    after (step { word 0x5110 with v := regs [(1, 9)] }) (fun t => t.pc == 0x204) = true ∧
    after (step { word 0x5120 with v := regs [(1, 7), (2, 8)] }) (fun t => t.pc == 0x202) = true := by
  and_intros <;> decide

/-- T18, T19. -/
theorem test_skip_ne_reg :
    after (step { word 0x9120 with v := regs [(1, 7), (2, 8)] }) (fun t => t.pc == 0x204) = true ∧
    after (step { word 0x9110 with v := regs [(1, 7)] }) (fun t => t.pc == 0x202) = true := by and_intros <;> decide

/-- T22. -/
theorem test_jump_offset :
    after (step { word 0xBFFF with v := regs [(0, 0xFF)] }) (fun t => t.pc == 0x10FE) = true := by decide

/-! ## Registers and ALU -/

/-- A2. -/
theorem test_load_imm : after (step (word 0x6F07)) (fun t => t.v[15] == 7 && t.pc == 0x202) = true := by decide

/-- A3. -/
theorem test_add_imm :
    after (step { word 0x7220 with v := regs [(2, 0xF0)] })
      (fun t => t.v[2] == 0x10 && t.v[15] == 0) = true := by
  decide

/-- A5. -/
theorem test_load_reg :
    after (step { word 0x8150 with v := regs [(5, 0x7A)] }) (fun t => t.v[1] == 0x7A && t.v[15] == 0) = true := by
  decide

/-- A6. -/
theorem test_or :
    after (step { word 0x8121 with v := regs [(1, 0x0F), (2, 0x30), (15, 5)] })
      (fun t => t.v[1] == 0x3F && t.v[15] == 5) = true := by decide

/-- A7. -/
theorem test_and :
    after (step { word 0x8122 with v := regs [(1, 0x3C), (2, 0x0F), (15, 5)] })
      (fun t => t.v[1] == 0x0C && t.v[15] == 5) = true := by decide

/-- A8. -/
theorem test_xor :
    after (step { word 0x8123 with v := regs [(1, 0xFF), (2, 0x0F)] })
      (fun t => t.v[1] == 0xF0 && t.v[15] == 0) = true := by decide

/-- A10 (W3). -/
theorem test_add_reg :
    after (step { word 0x8014 with v := regs [(0, 200), (1, 100)] })
      (fun t => t.v[0] == 44 && t.v[15] == 1) = true := by
  decide

/-- A13: X = F, the sum overwrites the flag. -/
theorem test_add_reg_into_vf :
    after (step { word 0x8F14 with v := regs [(15, 0xFF), (1, 2)] }) (fun t => t.v[15] == 1 && t.v[1] == 2) = true := by
  decide

/-- A16 (W4). -/
theorem test_sub_reg :
    after (step { word 0x8015 with v := regs [(0, 5), (1, 10)] }) (fun t => t.v[0] == 251 && t.v[15] == 0) = true := by
  decide

/-- A17 and A19: equal operands, and Y = F latched. -/
theorem test_sub_reg_no_borrow :
    after (step { word 0x8015 with v := regs [(0, 7), (1, 7)] }) (fun t => t.v[0] == 0 && t.v[15] == 1) = true ∧
    after (step { word 0x80F5 with v := regs [(0, 3), (15, 1)] }) (fun t => t.v[0] == 2 && t.v[15] == 1) = true := by
  and_intros <;> decide

/-- A20 (W5): Vx's own bit, whatever Vy holds. -/
theorem test_shr :
    after (step { word 0x8016 with v := regs [(0, 3), (1, 0xAA)] }) (fun t => t.v[0] == 1 && t.v[15] == 1) = true := by
  decide

/-- A23. -/
theorem test_shr_vf :
    after (step { word 0x8F06 with v := regs [(15, 0x81)] }) (fun t => t.v[15] == 0x40) = true := by decide

/-- A24. -/
theorem test_subn :
    after (step { word 0x8127 with v := regs [(1, 10), (2, 5)] }) (fun t => t.v[1] == 0xFB && t.v[15] == 0) = true := by
  decide

/-- A25. -/
theorem test_subn_no_borrow :
    after (step { word 0x8127 with v := regs [(1, 5), (2, 10)] }) (fun t => t.v[1] == 5 && t.v[15] == 1) = true := by
  decide

/-- A27. -/
theorem test_shl :
    after (step { word 0x840E with v := regs [(4, 0x81)] }) (fun t => t.v[4] == 2 && t.v[15] == 1) = true := by decide

/-- A29. -/
theorem test_shl_vf :
    after (step { word 0x8F0E with v := regs [(15, 0xC0)] }) (fun t => t.v[15] == 0x80) = true := by decide

/-! ## Index register and memory -/

/-- M1. -/
theorem test_load_index : after (step (word 0xA300)) (fun t => t.i == 0x300 && t.pc == 0x202) = true := by decide

/-- M3, M4. -/
theorem test_add_index :
    after (step { word 0xF21E with v := regs [(2, 1)], i := 0xFFF }) (fun t => t.i == 0x1000 && t.v[15] == 0) = true ∧
    after (step { word 0xF21E with v := regs [(2, 1)], i := 0xFFFF }) (fun t => t.i == 0 && t.v[15] == 0) = true := by
  and_intros <;> decide

/-- M6. -/
theorem test_load_font_addr :
    after (step { word 0xF029 with v := regs [(0, 0x1A)] }) (fun t => t.i == 0x32) = true := by decide

/-- M11. -/
theorem test_store_bcd :
    after (step { word 0xF033 with v := regs [(0, 123)], i := 0xFFD })
      (fun t => t.mem.readBytes 0xFFD 3 == [1, 2, 3] && t.i == 0xFFD) = true := by decide

/-- M12. -/
theorem test_store_bcd_out_of_bounds :
    after (step { word 0xF033 with v := regs [(0, 123)], i := 0xFFE })
      (fun t => t.mem == (word 0xF033).mem && t.runState == .halted .outOfBounds) = true := by decide

/-- M13. -/
theorem test_store_regs :
    after (step { word 0xF255 with v := regs [(0, 1), (1, 2), (2, 3), (3, 4)], i := 0x300 })
      (fun t => t.mem.readBytes 0x300 4 == [1, 2, 3, 0] && t.i == 0x300) = true := by decide

/-- M15. -/
theorem test_store_regs_out_of_bounds :
    after (step { word 0xF155 with v := regs [(0, 0xAB)], i := 0xFFF })
      (fun t => t.mem.read 0xFFF == 0 && t.runState == .halted .outOfBounds && t.pc == 0x202) = true := by decide

/-- M18. -/
theorem test_load_regs :
    after (step { withBytes 0x300 [2, 5, 4] (word 0xF265) with v := regs [(3, 9)], i := 0x300 })
      (fun t => t.v == regs [(0, 2), (1, 5), (2, 4), (3, 9)] && t.i == 0x300) = true := by decide

/-- M20. -/
theorem test_load_regs_out_of_bounds :
    after (step { word 0xF065 with v := regs [(0, 9)], i := 0x1000 })
      (fun t => t.v[0] == 9 && t.runState == .halted .outOfBounds) = true := by decide

/-! ## Display -/

/-- D1. -/
theorem test_clear_screen :
    after (step { word 0x00E0 with v := regs [(15, 3)], fb := pixelsOn [(0, 0), (63, 31)] })
      (fun t => !pixel t.fb 0 0 && !pixel t.fb 63 31 && t.v[15] == 3) = true := by decide

/-- W6: a draw at (63, 31) wraps to column 0 and row 0. -/
theorem test_draw_wraps :
    after (step { withBytes 0x300 [0xC0, 0xC0] (word 0xD012) with v := regs [(0, 63), (1, 31)], i := 0x300 })
      (fun t => pixel t.fb 63 31 && pixel t.fb 0 31 && pixel t.fb 63 0 && pixel t.fb 0 0 &&
        !pixel t.fb 62 31 && !pixel t.fb 1 0 && t.v[15] == 0) = true := by decide

/-- D3 and D8: a collision, and a sprite past the end of memory. -/
theorem test_draw_collision_and_bounds :
    after (step { withBytes 0x300 [0x80] (word 0xD011) with i := 0x300, fb := pixelsOn [(0, 0)] })
      (fun t => !pixel t.fb 0 0 && t.v[15] == 1) = true ∧
    after (step { word 0xD012 with i := 0xFFF, v := regs [(15, 7)] })
      (fun t => !pixel t.fb 0 0 && t.v[15] == 7 && t.runState == .halted .outOfBounds) = true := by
  and_intros <;> decide

/-! ## Timers, random source, keypad -/

/-- K1, for any stream: the byte is masked, and one byte is taken. -/
theorem test_random :
    after (step (word 0xC30F)) (fun t => t.v[3] == Config.rngStream 0 &&& 0x0F && t.rngPos == 1) = true := by
  simp only [show step (word 0xC30F) =
    .next { (word 0xC30F).advance with v := (regs []).set 3 (Config.rngStream 0 &&& 0x0F), rngPos := 1 } from rfl]
  simp [after]

/-- K4. -/
theorem test_load_delay :
    after (step { word 0xF507 with dt := 0x3C }) (fun t => t.v[5] == 0x3C && t.dt == 0x3C) = true := by
  decide

/-- K5. -/
theorem test_set_delay :
    after (step { word 0xF515 with v := regs [(5, 60)] }) (fun t => t.dt == 60 && t.st == 0) = true := by decide

/-- K6, K7. -/
theorem test_set_sound :
    after (step { word 0xF618 with v := regs [(6, 2)] }) (fun t => t.st == 2 && soundOn t && t.dt == 0) = true ∧
    after (step { word 0xF618 with st := 9 }) (fun t => t.st == 0 && !soundOn t) = true := by and_intros <;> decide

/-- E3 and E2. -/
theorem test_skip_key_down :
    after (step { word 0xE29E with v := regs [(2, 0x13)], keys := keysDown [3] }) (fun t => t.pc == 0x204) = true ∧
    after (step { word 0xE29E with v := regs [(2, 5)] }) (fun t => t.pc == 0x202) = true := by and_intros <;> decide

/-- E4, E5. -/
theorem test_skip_key_up :
    after (step { word 0xE2A1 with v := regs [(2, 5)] }) (fun t => t.pc == 0x204) = true ∧
    after (step { word 0xE2A1 with v := regs [(2, 5)], keys := keysDown [5] }) (fun t => t.pc == 0x202) = true := by
  and_intros <;> decide

/-- E6. -/
theorem test_wait_key :
    after (step { wordAt 0x300 0xF40A with keys := keysDown [2] })
      (fun t => t.pc == 0x302 && t.runState == .waitingForKey 4 && t.v[4] == 0) = true := by decide

/-- E7. -/
theorem test_waiting_cycle :
    after (step { State.reset with pc := 0x302, runState := .waitingForKey 4, keys := keysDown [2, 9] })
      (fun t => t.pc == 0x302 && t.runState == .running && t.v[4] == 2) = true := by decide

/-! ## Host operations -/

/-- K9, K8. -/
theorem test_tick :
    (tickTimers { State.reset with dt := 5, st := 1 }).dt = 4 ∧
    (tickTimers { State.reset with dt := 5, st := 1 }).st = 0 ∧
    tickTimers State.reset = State.reset := by and_intros <;> decide

/-- F9. -/
theorem test_load :
    (load [0x12, 0x00] { State.reset with runState := .halted .stackOverflow, i := 7, keys := keysDown [1] }) =
      ({ State.reset with mem := [(0x200, 0x12)], keys := keysDown [1] }, .ok) := by decide

/-- F10, F11: the size at the bound. -/
theorem test_load_size :
    programFits (List.replicate 3584 0) = true ∧ programFits (List.replicate 3585 0) = false := by
  simp only [programFits, List.length_replicate]
  and_intros <;> decide

/-- The glyph of digit 0 and the last byte of digit F (20_memory.md R52, R53). -/
theorem test_font :
    State.reset.mem.readBytes 0 5 = [0xF0, 0x90, 0x90, 0x90, 0xF0] ∧ State.reset.mem.read 79 = 0x80 ∧
    State.reset.mem.read 80 = 0 := by and_intros <;> decide

/-- A write of the value an unlisted address reads as removes the cell. -/
theorem test_memory_canonical :
    Memory.write (Memory.write (Memory.write [] 0x300 7) 0x200 1) 0x300 0 = [(0x200, 1)] ∧
    Memory.write [] 0 0xF0 = [] := by
  and_intros <;> decide

/-! ## Witnesses: for every obligation with hypotheses, states and operands that meet them -/

/-- A state with a stack pointer. -/
def atSp (sp : Fin 17) : State := { State.reset with sp := sp }

/-- A state with an index register. -/
def atI (i : Word) : State := { State.reset with i := i }

theorem witness_reset_inv : State.reset.Inv := ⟨by decide, by decide, by decide⟩

theorem witness_EncodeOfDecode :
    (decode 0x8014 = .ok (.addReg 0 1) ∧ ∀ x, Instr.addReg 0 1 ≠ .shr x ∧ Instr.addReg 0 1 ≠ .shl x) ∧
    (decode 0x80E6 = .ok (.shr 0) ∧ ∃ x, Instr.shr 0 = .shr x ∨ Instr.shr 0 = .shl x) ∧
    (decode 0x8FFE = .ok (.shl 15) ∧ ∃ x, Instr.shl 15 = .shr x ∨ Instr.shl 15 = .shl x) :=
  ⟨⟨by decide, by simp⟩, ⟨by decide, 0, by simp⟩, ⟨by decide, 15, by simp⟩⟩

theorem witness_DecodeAgreesWithTable :
    Mnemonic.shr.row.hits 0x80E6 = true ∧ Mnemonic.ret.row.hits 0x00EE = true ∧ Mnemonic.jump.row.hits 0x00EE = false := by
  decide

theorem witness_AssemblerRoundTrip :
    (⟨.draw, [.reg 15, .reg 0, .num 15]⟩ : AsmLine).wellFormed = true ∧
    (⟨.clearScreen, []⟩ : AsmLine).wellFormed = true ∧ (⟨.call, [.num 0xFFF]⟩ : AsmLine).wellFormed = true := by decide

theorem witness_StepRunsDecodedInstruction :
    (wordAt 0xFFE 0x6001).runState = .running ∧ (wordAt 0xFFE 0x6001).pc.toNat + 1 ≤ 0xFFF ∧
    decode (BitVec.ofNat 16 (((wordAt 0xFFE 0x6001).mem.read (wordAt 0xFFE 0x6001).pc.toNat).toNat * 256 +
      ((wordAt 0xFFE 0x6001).mem.read ((wordAt 0xFFE 0x6001).pc.toNat + 1)).toNat)) = .ok (.loadImm 0 1) := by
  and_intros <;> decide

/-- Both clauses: pc at 0xFFF and at 0xFFFF; the illegal word 0x0000 at 0x200 and at 0xFFE. -/
theorem witness_FetchAndDecodeFaults :
    (∀ pc ∈ ([0xFFF, 0xFFFF] : List Word), (State.reset.setPc pc).runState = .running ∧
      0xFFF < (State.reset.setPc pc).pc.toNat + 1) ∧
    (∀ pc ∈ ([0x200, 0xFFE] : List Word), (State.reset.setPc pc).runState = .running ∧
      (State.reset.setPc pc).pc.toNat + 1 ≤ 0xFFF ∧
      decode (BitVec.ofNat 16 (((State.reset.setPc pc).mem.read (State.reset.setPc pc).pc.toNat).toNat * 256 +
        ((State.reset.setPc pc).mem.read ((State.reset.setPc pc).pc.toNat + 1)).toNat)) = .error .unknownOpcode) := by
  simp only [List.forall_mem_cons, List.not_mem_nil, false_implies, implies_true, and_true]
  and_intros <;> decide

theorem witness_HaltedCycleReturnsSameFault :
    ∀ f, (State.reset.setRunState (.halted f)).runState = .halted f := fun _ => rfl

/-- The least key, the greatest key, and no key. -/
theorem witness_WaitingCycle :
    ((State.reset.setRunState (.waitingForKey 15)).runState = .waitingForKey 15 ∧
      (∀ k : KeyIdx, (State.reset.setRunState (.waitingForKey 15)).keys[k] = false)) ∧
    (((keysDown [0, 9])[(0 : KeyIdx)] = true ∧ ∀ j : KeyIdx, j < 0 → (keysDown [0, 9])[j] = false)) ∧
    (((keysDown [15])[(15 : KeyIdx)] = true ∧ ∀ j : KeyIdx, j < 15 → (keysDown [15])[j] = false)) := by
  and_intros <;> decide

/-- A fetch fault, and a fault after the advance. -/
theorem witness_FaultsArePrecise :
    (∃ t, step (State.reset.setPc 0xFFF) = .next t ∧ t.runState = .halted .outOfBounds) ∧
    (∃ t, step { word 0x2300 with sp := 16 } = .next t ∧ t.runState = .halted .stackOverflow) :=
  ⟨⟨_, rfl, rfl⟩, ⟨_, rfl, rfl⟩⟩

/-- Each case of the list just past its bound, and each just inside it. -/
theorem witness_OutOfBoundsExactly :
    (∃ t, step { word 0xD011 with i := 0x1000 } = .next t ∧ t.runState = .halted .outOfBounds) ∧
    (∃ t, step { word 0xF033 with i := 0xFFE } = .next t ∧ t.runState = .halted .outOfBounds) ∧
    (∃ t, step { word 0xF155 with i := 0xFFF } = .next t ∧ t.runState = .halted .outOfBounds) ∧
    (∃ t, step { word 0xF065 with i := 0x1000 } = .next t ∧ t.runState = .halted .outOfBounds) ∧
    (∃ t, step { word 0xD011 with i := 0xFFF } = .next t ∧ t.runState = .running) ∧
    (∃ t, step { word 0xF033 with i := 0xFFD } = .next t ∧ t.runState = .running) ∧
    (∃ t, step { word 0xF055 with i := 0xFFF } = .next t ∧ t.runState = .running) ∧
    (∃ t, step { word 0xF065 with i := 0xFFF } = .next t ∧ t.runState = .running) ∧
    (∃ t, step { word 0xD010 with i := 0xFFFF } = .next t ∧ t.runState = .running) :=
  ⟨⟨_, rfl, rfl⟩, ⟨_, rfl, rfl⟩, ⟨_, rfl, rfl⟩, ⟨_, rfl, rfl⟩, ⟨_, rfl, rfl⟩, ⟨_, rfl, rfl⟩, ⟨_, rfl, rfl⟩, ⟨_, rfl, rfl⟩,
    ⟨_, rfl, rfl⟩⟩

theorem witness_CallPushesAndJumps : (atSp 0).sp.val < 16 ∧ (atSp 15).sp.val < 16 ∧ (atSp 16).sp.val = 16 := by decide

theorem witness_ReturnPopsIntoPc : 0 < (atSp 1).sp.val ∧ 0 < (atSp 16).sp.val ∧ (atSp 0).sp.val = 0 := by decide

/-- The round trip's premises, at the least and the greatest stack pointer that `call` takes. -/
theorem witness_CallReturnRoundTrip :
    (∃ t u : State, (0 : Fin 16).val = (atSp 0).sp.val ∧ exec (.call 0x300) (atSp 0) = .next t ∧ u.sp = t.sp ∧
      u.stack[(0 : Fin 16)] = t.stack[(0 : Fin 16)]) ∧
    (∃ t u : State, (15 : Fin 16).val = (atSp 15).sp.val ∧ exec (.call 0x300) (atSp 15) = .next t ∧ u.sp = t.sp ∧
      u.stack[(15 : Fin 16)] = t.stack[(15 : Fin 16)]) :=
  ⟨⟨_, _, rfl, rfl, rfl, rfl⟩, ⟨_, _, rfl, rfl, rfl, rfl⟩⟩

theorem witness_SkipsOnKey :
    (15 : KeyIdx).val = ({ State.reset with v := regs [(2, 0xFF)] } : State).v[(2 : RegIdx)].toNat % 16 ∧
    (0 : KeyIdx).val = ({ State.reset with v := regs [(2, 0xF0)] } : State).v[(2 : RegIdx)].toNat % 16 := by decide

/-- A flag-writing instruction on a register that is not VF (the clauses under `x ≠ VF`). -/
theorem witness_AddRegSumAndCarry : (0 : RegIdx) ≠ VF ∧ (14 : RegIdx) ≠ VF := by decide

theorem witness_RegistersWrittenOnlyAsListed :
    (∃ t, exec (.addReg 0 1) State.reset = .next t) ∧ (∃ t, exec (.loadRegs 15) State.reset = .next t) :=
  ⟨⟨_, rfl⟩, ⟨_, rfl⟩⟩

theorem witness_StoreBcdStoresDigits :
    State.reset.mem.wf ∧ effectiveAddress (atI 0xFFD) 2 ≤ 0xFFF ∧ 0xFFF < effectiveAddress (atI 0xFFE) 2 := by decide

theorem witness_StoreRegsStoresRegisters :
    State.reset.mem.wf ∧ effectiveAddress (atI 0xFF0) 15 ≤ 0xFFF ∧ 0xFFF < effectiveAddress (atI 0xFF1) 15 := by decide

theorem witness_LoadRegsLoadsRegisters :
    effectiveAddress (atI 0xFFF) 0 ≤ 0xFFF ∧ 0xFFF < effectiveAddress (atI 0x1000) 0 ∧
    0xFFF < effectiveAddress (atI 0xFFFF) 15 := by decide

theorem witness_StoredCodeIsFetched :
    (atI 0xFFE).mem.wf ∧ 1 ≤ (1 : RegIdx).val ∧ effectiveAddress (atI 0xFFE) (1 : RegIdx).val ≤ 0xFFF ∧
    ∃ t, exec (.storeRegs 1) (atI 0xFFE) = .next t :=
  ⟨by decide, by decide, by decide, _, rfl⟩

theorem witness_EqualReadsEqualMemory :
    (Memory.write [] 0x300 7).wf ∧ (Memory.write (Memory.write [] 0x300 9) 0x300 7).wf ∧
    ∀ a, Memory.read (Memory.write [] 0x300 7) a = Memory.read (Memory.write (Memory.write [] 0x300 9) 0x300 7) a :=
  ⟨by decide, by decide, fun _ => rfl⟩

/-- Each listed writer does write. -/
theorem witness_IndexAndMemoryWriters :
    (∃ t, step (word 0xA300) = .next t ∧ t.i ≠ (word 0xA300).i) ∧
    (∃ t, step { word 0xF21E with v := regs [(2, 1)] } = .next t ∧ t.i ≠ 0) ∧
    (∃ t, step { word 0xF029 with v := regs [(0, 1)] } = .next t ∧ t.i ≠ 0) ∧
    (∃ t, step { word 0xF033 with v := regs [(0, 1)], i := 0x300 } = .next t ∧ t.mem.read 0x302 ≠ 0) ∧
    (∃ t, step { word 0xF055 with v := regs [(0, 1)], i := 0x300 } = .next t ∧ t.mem.read 0x300 ≠ 0) :=
  ⟨next_with (by decide), next_with (by decide), next_with (by decide), next_with (by decide), next_with (by decide)⟩

/-- N = 0 at the greatest I, the last sprite that fits, and the first that does not. -/
theorem witness_DrawFlipsCoveredPixels :
    ((0 : BitVec 4) = 0 ∨ effectiveAddress (atI 0xFFFF) ((0 : BitVec 4).toNat - 1) ≤ 0xFFF) ∧
    ((15 : BitVec 4) = 0 ∨ effectiveAddress (atI 0xFF1) ((15 : BitVec 4).toNat - 1) ≤ 0xFFF) ∧
    ((15 : BitVec 4) ≠ 0 ∧ 0xFFF < effectiveAddress (atI 0xFF2) ((15 : BitVec 4).toNat - 1)) := by decide

/-- The collision clauses: the first pixel of glyph "0" is covered, and is on or off. -/
theorem witness_DrawFlipsCoveredPixels_collision :
    (∃ cx ry, SpriteCovers State.reset 0 0 1 cx ry ∧ pixel (pixelsOn [(0, 0)]) cx ry = true) ∧
    (∀ cx ry, SpriteCovers State.reset 0 0 1 cx ry → pixel State.reset.fb cx ry = false) :=
  ⟨⟨0, 0, ⟨0, by decide, 0, by decide, by decide, by decide, by decide⟩, by decide⟩,
    fun cx ry _ => by simp [State.reset, blankFramebuffer, pixel]⟩

theorem witness_DrawTwiceRestores :
    ∃ t u : State, ((5 : BitVec 4) = 0 ∨ effectiveAddress State.reset ((5 : BitVec 4).toNat - 1) ≤ 0xFFF) ∧
      exec (.draw 1 2 5) State.reset = .next t ∧ u.fb = t.fb ∧ u.i = State.reset.i ∧
      u.v[(1 : RegIdx)] = State.reset.v[(1 : RegIdx)] ∧ u.v[(2 : RegIdx)] = State.reset.v[(2 : RegIdx)] ∧
      ∀ a, u.mem.read a = State.reset.mem.read a :=
  ⟨_, _, by decide, rfl, rfl, rfl, rfl, rfl, fun _ => rfl⟩

/-- Each listed writer does write. -/
theorem witness_DeviceAndStackWriters :
    (∃ t, step { word 0xF515 with v := regs [(5, 60)] } = .next t ∧ t.dt ≠ 0) ∧
    (∃ t, step { word 0xF618 with v := regs [(6, 2)] } = .next t ∧ t.st ≠ 0) ∧
    (∃ t, step (word 0xD125) = .next t ∧ t.fb ≠ blankFramebuffer) ∧
    (∃ t, step { word 0x00E0 with fb := pixelsOn [(0, 0)] } = .next t ∧ t.fb ≠ pixelsOn [(0, 0)]) ∧
    (∃ t, step (word 0xC300) = .next t ∧ t.rngPos ≠ 0) ∧
    (∃ t, step (word 0x2300) = .next t ∧ t.stack ≠ (word 0x2300).stack ∧ t.sp ≠ 0) ∧
    (∃ t, step { word 0x00EE with sp := 1 } = .next t ∧ t.sp ≠ 1) :=
  ⟨next_with (by decide), next_with (by decide),
    ⟨_, rfl, fun h => absurd (congrArg (fun f => pixel f 0 0) h) (by decide)⟩,
    ⟨_, rfl, fun h => absurd (congrArg (fun f => pixel f 0 0) h) (by decide)⟩,
    next_with (by decide), next_with (by decide), next_with (by decide)⟩

theorem witness_StepKeepsInv : ∃ t, State.reset.Inv ∧ step State.reset = .next t := ⟨_, witness_reset_inv, rfl⟩

theorem witness_SchedulesKeepInv :
    ∃ t rs, State.reset.Inv ∧ performAll [.load [0x12, 0x00], .cycle, .tickTimers, .readSound] State.reset = .next (t, rs) :=
  ⟨_, _, witness_reset_inv, rfl⟩

/-- Each of the four transitions. -/
theorem witness_RunStateTransitions :
    (∃ t r, perform .cycle (word 0xF40A) = .next (t, r) ∧ t.runState ≠ .running) ∧
    (∃ t r, perform .cycle { State.reset with runState := .waitingForKey 4, keys := keysDown [15] } = .next (t, r) ∧
      t.runState ≠ .waitingForKey 4) ∧
    (∃ t r, perform .cycle (word 0x00EE) = .next (t, r) ∧ t.runState ≠ .running) ∧
    (∃ t r, perform (.load [0x12, 0x00]) { State.reset with runState := .halted .outOfBounds } = .next (t, r) ∧
      t.runState ≠ .halted .outOfBounds) :=
  ⟨⟨_, _, rfl, by decide⟩, ⟨_, _, rfl, by decide⟩, ⟨_, _, rfl, by decide⟩, ⟨_, _, rfl, by decide⟩⟩

/-- Two states with a different stale entry, the top one, and 15 live ones. -/
theorem witness_StaleStackEntriesNeverObserved :
    EqUpToStaleStack (atSp 15) { atSp 15 with stack := (Vector.replicate 16 0).set 15 7 } ∧
    (∃ t, step (atSp 15) = .next t) ∧ ({ atSp 15 with stack := (Vector.replicate 16 0).set 15 7 } : State) ≠ atSp 15 := by
  refine ⟨⟨rfl, by decide⟩, ⟨_, rfl⟩, fun h => absurd (congrArg State.stack h) (by decide)⟩

theorem witness_SoundTimerNeverReadByProgram : ∃ t, step (word 0xF618) = .next t := ⟨_, rfl⟩

/-- Both ends of a run, the self-loop at its last address. -/
theorem witness_EndedRunsAreQuiescent :
    (State.reset.setRunState (.halted .stackOverflow)).runEnded ∧ (wordAt 0xFFE 0x1FFE).runEnded ∧
    (word 0x1200).runEnded :=
  ⟨.inl ⟨_, rfl⟩, .inr ⟨by decide, by decide, by decide⟩, .inr ⟨by decide, by decide, by decide⟩⟩

theorem witness_ConstructionState :
    (∀ k : KeyIdx, (atI 7).keys[k] = false) ∧ (atI 7).rngPos = 0 ∧ (atI 7) ≠ State.reset :=
  ⟨by decide, rfl, fun h => absurd (congrArg State.i h) (by decide)⟩

theorem witness_LoadResetsTheBlock :
    0x200 + (List.replicate 3584 (0xFF : Byte)).length ≤ 4096 ∧ 0x200 + ([] : List Byte).length ≤ 4096 := by
  simp only [List.length_replicate]
  decide

theorem witness_LoadTooLargeChangesNothing :
    4096 < Config.programBase + (List.replicate 3585 (0xFF : Byte)).length := by
  simp only [List.length_replicate]
  decide

/-- At the last fetchable pc, and at one where no word can be fetched. -/
theorem witness_PlacedWordRunsNext :
    (State.reset.setPc 0xFFE).mem.wf ∧ decodeTableWord 16 0x6342 = some (.loadImm 3 0x42) ∧
    (State.reset.setPc 0xFFE).pc.toNat ≤ 0xFFE ∧
    after (step (((State.reset.setPc 0xFFF).setRunState (.halted .outOfBounds)).withFetchWord 16 0x6342))
      (fun t => t.v[3] == 0x42 && t.pc == 0x202) = true := by
  and_intros <;> decide

end Sys2Proof.Tests
end

section
/-! Proofs of the control-flow statements (41_control_flow.md): the jump and the skips on an immediate. -/

namespace Sys2Proof.Machine

/-- The meaning of `jump` (41_control_flow.md R102). -/
theorem exec_jump (nnn : BitVec 12) (s : State) : exec (.jump nnn) s = .next (s.setPc (addressOf nnn)) := rfl

/-- The meaning of `skip-eq-imm` (41_control_flow.md R104). -/
theorem exec_skipEqImm (x : RegIdx) (nn : Byte) (s : State) :
    exec (.skipEqImm x nn) s = .next (s.skipIf (s.v[x] == nn)) := rfl

/-- The meaning of `skip-ne-imm` (41_control_flow.md R105). -/
theorem exec_skipNeImm (x : RegIdx) (nn : Byte) (s : State) :
    exec (.skipNeImm x nn) s = .next (s.skipIf (s.v[x] != nn)) := rfl

/-- A skip on equality, the test as a proposition. -/
theorem State.skipIf_beq_pc (s : State) (a b : Byte) :
    (s.skipIf (a == b)).pc = if a = b then s.pc + 2 else s.pc := by
  simp only [State.skipIf_pc, beq_iff_eq]

/-- A skip on inequality, the test as a proposition. -/
theorem State.skipIf_bne_pc (s : State) (a b : Byte) :
    (s.skipIf (a != b)).pc = if a = b then s.pc else s.pc + 2 := by
  simp only [State.skipIf_pc, bne_iff_ne, ne_eq, ite_not]

/-- Settles O15: the address keeps its value under zero extension, and the frame is that of `exec`. -/
theorem jumpSetsPc : Obligations.JumpSetsPc := by
  intro nnn s
  have hpc : (s.setPc (addressOf nnn)).pc.toNat = nnn.toNat := addressOf_toNat nnn
  exact ⟨_, exec_jump nnn s, hpc, exec_sameExcept (exec_jump nnn s)⟩

/-- Settles O20: each skip is `skipIf` on its comparison, and the frame is that of `exec`. -/
theorem skipsOnImmediate : Obligations.SkipsOnImmediate := by
  intro x nn s
  constructor
  · exact ⟨_, exec_skipEqImm x nn s, State.skipIf_beq_pc s _ _, exec_sameExcept (exec_skipEqImm x nn s)⟩
  · exact ⟨_, exec_skipNeImm x nn s, State.skipIf_bne_pc s _ _, exec_sameExcept (exec_skipNeImm x nn s)⟩

end Sys2Proof.Machine
end

section
/-! Proofs of the register and ALU statements (42_register_alu.md): the loads and the addition of an immediate. -/

namespace Sys2Proof.Machine

/-- The meaning of `load-imm` (42_register_alu.md R121). -/
theorem exec_loadImm (x : RegIdx) (nn : Byte) (s : State) : exec (.loadImm x nn) s = .next (s.writeV x nn) := rfl

/-- The meaning of `load-reg` (42_register_alu.md R123). -/
theorem exec_loadReg (x y : RegIdx) (s : State) : exec (.loadReg x y) s = .next (s.writeV x s.v[y]) := rfl

/-- The meaning of `add-imm` (42_register_alu.md R122). -/
theorem exec_addImm (x : RegIdx) (nn : Byte) (s : State) :
    exec (.addImm x nn) s = .next (s.writeV x (sumByte s.v[x] nn)) := rfl

theorem State.getElem_writeV_same (s : State) (x : RegIdx) (b : Byte) : (s.writeV x b).v[x] = b := by
  rw [State.getElem_writeV, if_pos rfl]

/-- One register write leaves every other register as it was. -/
theorem State.writeV_regsExcept (s : State) (x : RegIdx) (b : Byte) : RegsExcept [x] s (s.writeV x b) := by
  intro r hr
  rw [State.getElem_writeV, if_neg (List.ne_of_not_mem_cons hr)]

/-- Settles O24: each load is one register write, of NN or of the old V[Y], and the frame is that of `exec`. -/
theorem registerLoads : Obligations.RegisterLoads := by
  constructor
  · intro x nn s
    exact ⟨_, exec_loadImm x nn s, s.getElem_writeV_same x nn, s.writeV_regsExcept x nn,
      exec_sameExcept (exec_loadImm x nn s)⟩
  · intro x y s
    exact ⟨_, exec_loadReg x y s, s.getElem_writeV_same x s.v[y], s.writeV_regsExcept x s.v[y],
      exec_sameExcept (exec_loadReg x y s)⟩

/-- Settles O25: the one register written holds the sum byte, and the frame is that of `exec`. -/
theorem addImmWrapsWithoutFlag : Obligations.AddImmWrapsWithoutFlag := by
  intro x nn s
  have hsum : (s.writeV x (sumByte s.v[x] nn)).v[x].toNat = (s.v[x].toNat + nn.toNat) % 256 := by
    rw [State.getElem_writeV_same, sumByte_toNat]
  exact ⟨_, exec_addImm x nn s, hsum, s.writeV_regsExcept x _, exec_sameExcept (exec_addImm x nn s)⟩

end Sys2Proof.Machine
end

section
/-! Proofs of the index and memory statements (43_index_memory.md): the load of I and the store of decimal digits. -/

namespace Sys2Proof.Machine

/-- The meaning of `load-index` (43_index_memory.md R141). -/
theorem exec_loadIndex (nnn : BitVec 12) (s : State) :
    exec (.loadIndex nnn) s = .next (s.setI (addressOf nnn)) := rfl

/-- The meaning of `store-bcd` (43_index_memory.md R144). -/
theorem exec_storeBcd (x : RegIdx) (s : State) :
    exec (.storeBcd x) s = check (inBounds (effectiveAddress s 2)) .outOfBounds s
      (s.setMem (s.mem.writeBytes (effectiveAddress s 0) (bcdDigits s.v[x]))) := rfl

/-- An effect checked by an address in bounds happens. -/
theorem check_inBounds_of_le {a : Nat} (h : a ≤ 0xFFF) (f : FaultKind) (s t : State) :
    check (inBounds a) f s t = .next t := by
  rw [(inBounds_iff a).mpr h, check_true]

/-- An effect checked by an address out of bounds leaves only the fault. -/
theorem check_inBounds_of_gt {a : Nat} (h : 0xFFF < a) (f : FaultKind) (s t : State) :
    check (inBounds a) f s t = .next (s.setRunState (.halted f)) := by
  have hout : inBounds a = false := Bool.eq_false_iff.mpr fun hin => Nat.not_lt.mpr ((inBounds_iff a).mp hin) h
  rw [hout, check_false]

/-- Byte k of a stored list is read k above the list's address. -/
theorem Memory.read_writeBytes_add {m : Memory} (hm : m.wf) (a : Nat) {bs : List Byte} {k : Nat}
    (hk : k < bs.length) : (m.writeBytes a bs).read (a + k) = bs.getD k 0 := by
  rw [Memory.read_writeBytes m a (a + k) bs hm.1, if_pos (by omega), Nat.add_sub_cancel_left]

/-- Storing a list of bytes leaves every byte outside it. -/
theorem State.setMem_writeBytes_memExcept {s : State} (hm : s.mem.wf) (a : Nat) (bs : List Byte) :
    MemExcept a bs.length s (s.setMem (s.mem.writeBytes a bs)) := by
  intro b hb
  rw [State.setMem_mem, Memory.read_writeBytes s.mem a b bs hm.1, if_neg (by omega)]

/-- A replaced memory leaves every other piece of state. -/
theorem State.setMem_sameExcept (s : State) (m : Memory) : SameExcept [.mem] s (s.setMem m) := by
  constructor <;> simp

/-- The decimal digits of a byte are below 256, so none is cut when stored. -/
theorem bcdDigits_toNat (b : Byte) :
    ((bcdDigits b).getD 0 0).toNat = b.toNat / 100 ∧ ((bcdDigits b).getD 1 0).toNat = b.toNat / 10 % 10 ∧
    ((bcdDigits b).getD 2 0).toNat = b.toNat % 10 := by
  have hb := b.isLt
  exact ⟨Nat.mod_eq_of_lt (by omega), Nat.mod_eq_of_lt (by omega), Nat.mod_eq_of_lt (by omega)⟩

/-- Settles O31: the address keeps its value under zero extension, and the frame is that of `exec`. -/
theorem loadIndexSetsI : Obligations.LoadIndexSetsI := by
  intro nnn s
  have hi : (s.setI (addressOf nnn)).i.toNat = nnn.toNat := addressOf_toNat nnn
  exact ⟨_, exec_loadIndex nnn s, hi, exec_sameExcept (exec_loadIndex nnn s)⟩

/-- Settles O33: in bounds the digits are read back where they were stored, and the store's own frame gives the rest;
out of bounds the check leaves only the fault. -/
theorem storeBcdStoresDigits : Obligations.StoreBcdStoresDigits := by
  intro x s hm
  have hexec := exec_storeBcd x s
  constructor
  · intro hin
    rw [check_inBounds_of_le hin] at hexec
    have hread (k : Nat) (hk : k < 3) : (s.mem.writeBytes (effectiveAddress s 0) (bcdDigits s.v[x])).read
        (effectiveAddress s k) = (bcdDigits s.v[x]).getD k 0 := Memory.read_writeBytes_add hm _ hk
    obtain ⟨hhundreds, htens, hones⟩ := bcdDigits_toNat s.v[x]
    exact ⟨_, hexec, (congrArg BitVec.toNat (hread 0 (by decide))).trans hhundreds,
      (congrArg BitVec.toNat (hread 1 (by decide))).trans htens,
      (congrArg BitVec.toNat (hread 2 (by decide))).trans hones,
      State.setMem_writeBytes_memExcept hm _ (bcdDigits s.v[x]), s.setMem_sameExcept _⟩
  · intro hout
    exact hexec.trans (check_inBounds_of_gt hout _ _ _)

end Sys2Proof.Machine
end

section
/-! Proof of the display statement on clearing the screen (44_display.md R161). -/

namespace Sys2Proof.Machine

/-- The meaning of `clear-screen` (44_display.md R161). -/
theorem exec_clearScreen (s : State) : exec .clearScreen s = .next (s.setFb blankFramebuffer) := rfl

/-- Settles O39: the framebuffer is replaced by the blank one, whose pixels are all off, and the frame is that of
`exec`. -/
theorem clearScreenTurnsAllOff : Obligations.ClearScreenTurnsAllOff := by
  intro s
  have hoff (x : Column) (y : Row) : pixel (s.setFb blankFramebuffer).fb x y = false := by
    rw [State.setFb_fb, pixel_blank]
  exact ⟨_, exec_clearScreen s, hoff, exec_sameExcept (exec_clearScreen s)⟩

end Sys2Proof.Machine
end

section
/-! Proof of the statement on the timer instructions (45_timers_random.md R182 to R184). -/

namespace Sys2Proof.Machine

/-- The meaning of `load-delay` (45_timers_random.md R182). -/
theorem exec_loadDelay (x : RegIdx) (s : State) : exec (.loadDelay x) s = .next (s.writeV x s.dt) := rfl

/-- The meaning of `set-delay` (45_timers_random.md R183). -/
theorem exec_setDelay (x : RegIdx) (s : State) : exec (.setDelay x) s = .next (s.setDt s.v[x]) := rfl

/-- The meaning of `set-sound` (45_timers_random.md R184). -/
theorem exec_setSound (x : RegIdx) (s : State) : exec (.setSound x) s = .next (s.setSt s.v[x]) := rfl

/-- The sound output is on exactly while ST is above 0 (10_state.md R32). -/
theorem soundOn_iff (s : State) : soundOn s = true ↔ 0 < s.st.toNat := decide_eq_true_iff

/-- Settles O42: `load-delay` is one register write, `set-delay` and `set-sound` replace one timer each, and the frames
are those of `exec`. -/
theorem timerInstructions : Obligations.TimerInstructions := by
  intro x s
  refine ⟨?loadDelay, ?setDelay, ?setSound⟩
  case loadDelay =>
    exact ⟨_, exec_loadDelay x s, s.getElem_writeV_same x s.dt, s.writeV_regsExcept x s.dt,
      exec_sameExcept (exec_loadDelay x s)⟩
  case setDelay =>
    exact ⟨_, exec_setDelay x s, State.setDt_dt s s.v[x], exec_sameExcept (exec_setDelay x s)⟩
  case setSound =>
    have hst : (s.setSt s.v[x]).st = s.v[x] := State.setSt_st s s.v[x]
    have hsound : soundOn (s.setSt s.v[x]) = true ↔ 0 < s.v[x].toNat := by rw [soundOn_iff, hst]
    exact ⟨_, exec_setSound x s, hst, hsound, exec_sameExcept (exec_setSound x s)⟩

end Sys2Proof.Machine
end

section
/-! Proofs of the statements on faults and the host's operations (60_exceptions.md): when `cycle()` raises OutOfBounds,
when the stack faults, a load that is too large, and the outputs. -/

namespace Sys2Proof.Machine

/-! ## The stack faults (60_exceptions.md R222, R223) -/

/-- `call` with room on the stack (41_control_flow.md R103). -/
theorem exec_call_of_lt (nnn : BitVec 12) (s : State) (h : s.sp.val < 16) :
    exec (.call nnn) s = .next { s with
      stack := s.stack.set s.sp.val s.pc h, sp := ⟨s.sp.val + 1, by omega⟩, pc := addressOf nnn } := by
  simp only [exec, execCall, State.push_of_lt s _ h, State.setPc]

/-- `call` on a full stack (60_exceptions.md R222). -/
theorem exec_call_full (nnn : BitVec 12) (s : State) (h : s.sp.val = 16) :
    exec (.call nnn) s = .next (s.setRunState (.halted .stackOverflow)) := by
  simp only [exec, execCall, State.push_full s _ h, raise]

/-- `return` with an entry on the stack (41_control_flow.md R101). -/
theorem exec_ret_of_pos (s : State) (h : 0 < s.sp.val) :
    exec .ret s = .next { s with
      sp := ⟨s.sp.val - 1, by omega⟩, pc := s.stack[s.sp.val - 1]'(by omega) } := by
  simp only [exec, execRet, State.pop_of_pos s h, State.setPc]

/-- `return` on an empty stack (60_exceptions.md R223). -/
theorem exec_ret_empty (s : State) (h : s.sp.val = 0) :
    exec .ret s = .next (s.setRunState (.halted .stackUnderflow)) := by
  simp only [exec, execRet, State.pop_empty s h, raise]

/-- Settles O14: a stack operation that does not fault moves SP, and the faulted state has the old SP. -/
theorem stackFaultsExactly : Obligations.StackFaultsExactly := by
  constructor
  · intro nnn s
    refine ⟨fun h => ?_, exec_call_full nnn s⟩
    by_contra hne
    rw [exec_call_of_lt nnn s (by omega), Host.Outcome.next.injEq] at h
    have hsp : s.sp.val + 1 = s.sp.val := congrArg (fun t : State => t.sp.val) h
    omega
  · intro s
    refine ⟨fun h => ?_, exec_ret_empty s⟩
    by_contra hne
    rw [exec_ret_of_pos s (by omega), Host.Outcome.next.injEq] at h
    have hsp : s.sp.val - 1 = s.sp.val := congrArg (fun t : State => t.sp.val) h
    omega

/-! ## OutOfBounds (60_exceptions.md R221) -/

/-- The accesses of an instruction that pass the last address: the sprite of `draw` unless it has no row, the three
digits of `store-bcd`, the registers of `store-regs` and `load-regs`. -/
def AccessOutOfBounds (i : Instr) (s : State) : Prop :=
  (∃ x y n, i = .draw x y n ∧ 0 < n.toNat ∧ 0xFFF < s.i.toNat + n.toNat - 1) ∨
  (∃ x, i = .storeBcd x ∧ 0xFFF < s.i.toNat + 2) ∨
  (∃ x, i = .storeRegs x ∧ 0xFFF < s.i.toNat + x.val) ∨
  (∃ x, i = .loadRegs x ∧ 0xFFF < s.i.toNat + x.val)

/-- A sprite is out of bounds exactly when it has a row and its last row passes the last address. -/
theorem spriteInBounds_eq_false_iff (n : BitVec 4) (s : State) :
    spriteInBounds n s = false ↔ 0 < n.toNat ∧ 0xFFF < s.i.toNat + n.toNat - 1 := by
  have hzero : n = 0 ↔ n.toNat = 0 := BitVec.toNat_inj.symm
  rw [← Bool.not_eq_true, spriteInBounds, Bool.or_eq_true, beq_iff_eq, inBounds_iff, hzero, effectiveAddress]
  omega

/-- An access out of bounds faults before any write of the instruction. -/
theorem exec_of_accessOutOfBounds {i : Instr} {s : State} (h : AccessOutOfBounds i s) :
    exec i s = .next (s.setRunState (.halted .outOfBounds)) := by
  obtain ⟨x, y, n, rfl, hn⟩ | ⟨x, rfl, hout⟩ | ⟨x, rfl, hout⟩ | ⟨x, rfl, hout⟩ := h
  · rw [exec, execDraw, (spriteInBounds_eq_false_iff n s).mpr hn, check_false]
  · exact check_inBounds_of_gt hout _ _ _
  · exact check_inBounds_of_gt hout _ _ _
  · exact check_inBounds_of_gt hout _ _ _

/-- A check that holds, before an effect that leaves the block running, halts nothing. -/
theorem check_not_halted {c : Bool} {f : FaultKind} {s t u : State} (h : check c f s t = .next u) (hc : c ≠ false)
    (ht : t.runState = .running) (g : FaultKind) : u.runState ≠ .halted g := by
  obtain ⟨-, rfl⟩ | ⟨hf, -⟩ := check_eq_next.mp h
  · rw [ht]
    exact nofun
  · exact absurd hf hc

/-- Without an access out of bounds no instruction raises OutOfBounds: the checks hold, the stack's faults are others,
`wait-key` waits, and the rest leave the run state. -/
theorem exec_runState_ne_outOfBounds {i : Instr} {s t : State} (hr : s.runState = .running)
    (hin : ¬ AccessOutOfBounds i s) (h : exec i s = .next t) : t.runState ≠ .halted .outOfBounds := by
  have hle {a : Nat} (ha : ¬ 0xFFF < a) : inBounds a ≠ false := by
    rw [(inBounds_iff a).mpr (Nat.not_lt.mp ha)]
    exact nofun
  cases i with
  | draw x y n =>
    exact check_not_halted h (fun hn => hin (.inl ⟨x, y, n, rfl, (spriteInBounds_eq_false_iff n s).mp hn⟩)) hr _
  | storeBcd x => exact check_not_halted h (hle fun hout => hin (.inr (.inl ⟨x, rfl, hout⟩))) hr _
  | storeRegs x => exact check_not_halted h (hle fun hout => hin (.inr (.inr (.inl ⟨x, rfl, hout⟩)))) hr _
  | loadRegs x => exact check_not_halted h (hle fun hout => hin (.inr (.inr (.inr ⟨x, rfl, hout⟩)))) hr _
  | call nnn =>
    by_cases hsp : s.sp.val = 16
    · rw [exec_call_full nnn s hsp] at h
      cases h
      exact nofun
    · rw [exec_call_of_lt nnn s (by omega)] at h
      cases h
      simp [hr]
  | ret =>
    by_cases hsp : s.sp.val = 0
    · rw [exec_ret_empty s hsp] at h
      cases h
      exact nofun
    · rw [exec_ret_of_pos s (by omega)] at h
      cases h
      simp [hr]
  | waitKey x =>
    cases h
    exact nofun
  | _ =>
    have hkeep : t.runState = s.runState := (exec_sameExcept h).runState (by simp [touches])
    simp [hkeep, hr]

/-- A running block's instruction raises OutOfBounds exactly on an access out of bounds. -/
theorem exec_outOfBounds_iff {i : Instr} {s t : State} (hr : s.runState = .running) (h : exec i s = .next t) :
    t.runState = .halted .outOfBounds ↔ AccessOutOfBounds i s := by
  refine ⟨fun ht => by_contra fun hin => exec_runState_ne_outOfBounds hr hin h ht, fun hout => ?_⟩
  rw [exec_of_accessOutOfBounds hout] at h
  cases h
  rfl

/-- New values of pc and the run state leave every other piece of state. -/
theorem State.setPc_setRunState_sameExcept (s : State) (w : Word) (r : RunState) :
    SameExcept [.pc, .runState] s ((s.setPc w).setRunState r) := by
  constructor <;> simp

/-- Settles O13: a running step is a fetch fault, a decode fault, which is another fault, or the decoded instruction,
which raises OutOfBounds exactly on an access out of bounds and then writes nothing. -/
theorem outOfBoundsExactly : Obligations.OutOfBoundsExactly := by
  intro s t hr h
  obtain ⟨hfetch, rfl⟩ | ⟨hb, ⟨e, hd⟩, rfl⟩ | ⟨hb, i, hd, hexec⟩ := step_running_cases hr h
  · exact ⟨iff_of_true rfl (.inl hfetch), fun _ => s.setPc_setRunState_sameExcept s.pc _⟩
  · simp [hd, Nat.not_lt.mpr hb]
  · have hiff := exec_outOfBounds_iff (s := s.advance) hr hexec
    constructor
    · rw [hiff]
      simp [AccessOutOfBounds, hd, hb, Nat.not_lt.mpr hb]
    · intro ht
      rw [exec_of_accessOutOfBounds (hiff.mp ht)] at hexec
      cases hexec
      exact s.setPc_setRunState_sameExcept (s.pc + 2) _

/-! ## The host's operations (60_exceptions.md R225, R238, R239) -/

/-- A load of a program that does not fit (60_exceptions.md R225). -/
theorem load_of_not_fits {bytes : List Byte} (h : ¬ programFits bytes = true) (s : State) :
    load bytes s = (s, .fault .programTooLarge) := if_neg h

/-- Settles O54: the size check fails, so the load is the fault alone. -/
theorem loadTooLargeChangesNothing : Obligations.LoadTooLargeChangesNothing := by
  intro bytes s hlarge
  have hfits : ¬ programFits bytes = true := fun h => Nat.not_le.mpr hlarge ((programFits_iff bytes).mp h)
  rw [perform, load_of_not_fits hfits]

/-- Settles O57: each read answers with the state it was asked in, and the sound output is ST > 0. -/
theorem outputsAreReadOnly : Obligations.OutputsAreReadOnly :=
  fun s => ⟨rfl, soundOn s, rfl, soundOn_iff s⟩

end Sys2Proof.Machine
end

section
/-! Proofs of the encoding statements (30_encoding.md): the decoder against the encoder, the opcode table and the class
map. -/

namespace Sys2Proof

/-! ## The decode of a word by its class (30_encoding.md R76) -/

section
variable {w : Word}

theorem decode_class0 (h : fieldC w = 0x0) : decode w = decodeClass0 w := by simp [decode, h]
theorem decode_class1 (h : fieldC w = 0x1) : decode w = .ok (.jump (fieldNNN w)) := by simp [decode, h]
theorem decode_class2 (h : fieldC w = 0x2) : decode w = .ok (.call (fieldNNN w)) := by simp [decode, h]
theorem decode_class3 (h : fieldC w = 0x3) : decode w = .ok (.skipEqImm (fieldX w) (fieldNN w)) := by simp [decode, h]
theorem decode_class4 (h : fieldC w = 0x4) : decode w = .ok (.skipNeImm (fieldX w) (fieldNN w)) := by simp [decode, h]
theorem decode_class5 (h : fieldC w = 0x5) : decode w = decodeClass5 w := by simp [decode, h]
theorem decode_class6 (h : fieldC w = 0x6) : decode w = .ok (.loadImm (fieldX w) (fieldNN w)) := by simp [decode, h]
theorem decode_class7 (h : fieldC w = 0x7) : decode w = .ok (.addImm (fieldX w) (fieldNN w)) := by simp [decode, h]
theorem decode_class8 (h : fieldC w = 0x8) : decode w = decodeClass8 w := by simp [decode, h]
theorem decode_class9 (h : fieldC w = 0x9) : decode w = decodeClass9 w := by simp [decode, h]
theorem decode_classA (h : fieldC w = 0xA) : decode w = .ok (.loadIndex (fieldNNN w)) := by simp [decode, h]
theorem decode_classB (h : fieldC w = 0xB) : decode w = .ok (.jumpOffset (fieldNNN w)) := by simp [decode, h]
theorem decode_classC (h : fieldC w = 0xC) : decode w = .ok (.random (fieldX w) (fieldNN w)) := by simp [decode, h]
theorem decode_classD (h : fieldC w = 0xD) : decode w = .ok (.draw (fieldX w) (fieldY w) (fieldN w)) := by
  simp [decode, h]
theorem decode_classE (h : fieldC w = 0xE) : decode w = decodeClassE w := by simp [decode, h]
theorem decode_classF (h : fieldC w = 0xF) : decode w = decodeClassF w := by simp [decode, h]

end

/-- The 16 nibbles. -/
theorem nibble_cases : ∀ c : BitVec 4, c = 0x0 ∨ c = 0x1 ∨ c = 0x2 ∨ c = 0x3 ∨ c = 0x4 ∨ c = 0x5 ∨ c = 0x6 ∨ c = 0x7 ∨
    c = 0x8 ∨ c = 0x9 ∨ c = 0xA ∨ c = 0xB ∨ c = 0xC ∨ c = 0xD ∨ c = 0xE ∨ c = 0xF := by decide

/-! ## The words of an instruction (30_encoding.md R73, R75, R90) -/

/-- The word of an instruction with `y` in the Y field where the instruction ignores it, as `shr` and `shl` do. -/
def encodeWithY (y : RegIdx) : Instr → Word
  | .shr x => wordXYN 0x8 x y 0x6
  | .shl x => wordXYN 0x8 x y 0xE
  | i => encode i

/-- The encoder puts the ignored field to 0. -/
theorem encodeWithY_zero (i : Instr) : encodeWithY 0 i = encode i := by
  cases i <;> rfl

/-- Every word of an instruction decodes to it, whatever an ignored Y field holds. -/
theorem decode_encodeWithY (y : RegIdx) (i : Instr) : decode (encodeWithY y i) = .ok i := by
  cases i with
  | clearScreen => exact (by decide : decode 0x00E0 = .ok .clearScreen)
  | ret => exact (by decide : decode 0x00EE = .ok .ret)
  | _ => simp [encodeWithY, encode, decode, decodeClass5, decodeClass8, decodeClass9, decodeClassE, decodeClassF]

theorem encodeWithY_of_decodeClass0 {w : Word} {i : Instr} (h : decodeClass0 w = .ok i) :
    encodeWithY (fieldY w) i = w := by
  unfold decodeClass0 at h
  split_ifs at h with h1 h2 <;> cases h
  · exact h1.symm
  · exact h2.symm

theorem encodeWithY_of_decodeClass8 {w : Word} {i : Instr} (hC : fieldC w = 0x8) (h : decodeClass8 w = .ok i) :
    encodeWithY (fieldY w) i = w := by
  unfold decodeClass8 at h
  split_ifs at h with h0 h1 h2 h3 h4 h5 h6 h7 hE <;> cases h <;> exact wordXYN_of_class hC ‹_›

theorem encodeWithY_of_decodeClassE {w : Word} {i : Instr} (hC : fieldC w = 0xE) (h : decodeClassE w = .ok i) :
    encodeWithY (fieldY w) i = w := by
  unfold decodeClassE at h
  split_ifs at h with h1 h2 <;> cases h <;> exact wordXNN_of_class hC ‹_›

theorem encodeWithY_of_decodeClassF {w : Word} {i : Instr} (hC : fieldC w = 0xF) (h : decodeClassF w = .ok i) :
    encodeWithY (fieldY w) i = w := by
  unfold decodeClassF at h
  split_ifs at h <;> cases h <;> exact wordXNN_of_class hC ‹_›

/-- A legal word is the word of the instruction it decodes to, with its own Y field where that is ignored. -/
theorem encodeWithY_of_decode {w : Word} {i : Instr} (h : decode w = .ok i) : encodeWithY (fieldY w) i = w := by
  rcases nibble_cases (fieldC w) with hC | hC | hC | hC | hC | hC | hC | hC | hC | hC | hC | hC | hC | hC | hC | hC
  · rw [decode_class0 hC] at h
    exact encodeWithY_of_decodeClass0 h
  · cases (decode_class1 hC).symm.trans h
    exact wordNNN_of_class hC
  · cases (decode_class2 hC).symm.trans h
    exact wordNNN_of_class hC
  · cases (decode_class3 hC).symm.trans h
    exact wordXNN_of_class hC rfl
  · cases (decode_class4 hC).symm.trans h
    exact wordXNN_of_class hC rfl
  · rw [decode_class5 hC, decodeClass5] at h
    split_ifs at h with hN
    cases h
    exact wordXYN_of_class hC hN
  · cases (decode_class6 hC).symm.trans h
    exact wordXNN_of_class hC rfl
  · cases (decode_class7 hC).symm.trans h
    exact wordXNN_of_class hC rfl
  · rw [decode_class8 hC] at h
    exact encodeWithY_of_decodeClass8 hC h
  · rw [decode_class9 hC, decodeClass9] at h
    split_ifs at h with hN
    cases h
    exact wordXYN_of_class hC hN
  · cases (decode_classA hC).symm.trans h
    exact wordNNN_of_class hC
  · cases (decode_classB hC).symm.trans h
    exact wordNNN_of_class hC
  · cases (decode_classC hC).symm.trans h
    exact wordXNN_of_class hC rfl
  · cases (decode_classD hC).symm.trans h
    exact wordXYN_of_class hC rfl
  · rw [decode_classE hC] at h
    exact encodeWithY_of_decodeClassE hC h
  · rw [decode_classF hC] at h
    exact encodeWithY_of_decodeClassF hC h

/-- A word decodes to an instruction exactly when it is one of the instruction's words. -/
theorem decode_eq_ok_iff {w : Word} {i : Instr} : decode w = .ok i ↔ ∃ y, encodeWithY y i = w := by
  constructor
  · exact fun h => ⟨fieldY w, encodeWithY_of_decode h⟩
  · rintro ⟨y, rfl⟩
    exact decode_encodeWithY y i

/-- Outside `shr` and `shl` an instruction has one word. -/
theorem encodeWithY_eq_encode {i : Instr} (h : ∀ x, i ≠ .shr x ∧ i ≠ .shl x) (y : RegIdx) :
    encodeWithY y i = encode i := by
  cases i with
  | shr x => exact absurd rfl (h x).1
  | shl x => exact absurd rfl (h x).2
  | _ => rfl

/-- Settles O2: the encoder's word is the one with Y = 0 where Y is ignored, and every word of an instruction decodes
to it. -/
theorem decodeOfEncode : Obligations.DecodeOfEncode := by
  intro i
  rw [← encodeWithY_zero i]
  exact decode_encodeWithY 0 i

/-- Settles O3: a legal word is one of its instruction's words; the mask puts the Y field of `shr` and `shl` to 0. -/
theorem encodeOfDecode : Obligations.EncodeOfDecode := by
  intro w i h
  have hw := encodeWithY_of_decode h
  constructor
  · intro hi
    rw [← encodeWithY_eq_encode hi (fieldY w), hw]
  · rintro ⟨x, rfl | rfl⟩
    · exact (wordXYN_and_mask 0x8 0x6 x (fieldY w)).symm.trans (congrArg (· &&& 0xFF0F) hw)
    · exact (wordXYN_and_mask 0x8 0xE x (fieldY w)).symm.trans (congrArg (· &&& 0xFF0F) hw)

/-! ## The opcode table (30_encoding.md R75) -/

/-- A word matches a row exactly when the row's mask leaves the row's pattern. -/
theorem TableRow.hits_iff (r : TableRow) (w : Word) : r.hits w = true ↔ w &&& r.mask = r.pattern := beq_iff_eq

/-- Every word of an instruction matches the row of its name. -/
theorem encodeWithY_and_mask (y : RegIdx) (i : Instr) :
    encodeWithY y i &&& i.mnemonic.row.mask = i.mnemonic.row.pattern := by
  cases i with
  | clearScreen => exact Laws.TableRow.clearScreen
  | ret => exact Laws.TableRow.ret
  | jump | call | loadIndex | jumpOffset => exact wordNNN_and_class _ _
  | skipEqImm | skipNeImm | loadImm | addImm | random => exact wordXNN_and_class _ _ _
  | draw => exact wordXYN_and_class _ _ _ _
  | skipEqReg | skipNeReg | loadReg | orReg | andReg | xorReg | addReg | subReg | shr | subn | shl =>
    exact wordXYN_and_low _ _ _ _
  | skipKeyDown | skipKeyUp | loadDelay | waitKey | setDelay | setSound | addIndex | loadFontAddr | storeBcd
  | storeRegs | loadRegs => exact wordXNN_and_low _ _ _

/-! ### The fields a mask fixes -/

section
variable {w m p : Word}

theorem fieldC_of_mask (hm : fieldC m = 0xF) (h : w &&& m = p) : fieldC w = fieldC p := by
  rw [← h, fieldC, fieldC, BitVec.extractLsb'_and]
  exact ((congrArg (_ &&& ·) hm).trans BitVec.and_allOnes).symm

theorem fieldN_of_mask (hm : fieldN m = 0xF) (h : w &&& m = p) : fieldN w = fieldN p := by
  rw [← h, fieldN, fieldN, BitVec.extractLsb'_and]
  exact ((congrArg (_ &&& ·) hm).trans BitVec.and_allOnes).symm

theorem fieldNN_of_mask (hm : fieldNN m = 0xFF) (h : w &&& m = p) : fieldNN w = fieldNN p := by
  rw [← h, fieldNN, fieldNN, BitVec.extractLsb'_and]
  exact ((congrArg (_ &&& ·) hm).trans BitVec.and_allOnes).symm

/-- A word under a mask of the class and N, from its fields. -/
theorem wordXYN_of_mask {c n : BitVec 4} (h : w &&& 0xF00F = p) (hc : fieldC p = c) (hn : fieldN p = n) :
    wordXYN c (fieldX w) (fieldY w) n = w :=
  wordXYN_of_class ((fieldC_of_mask rfl h).trans hc) ((fieldN_of_mask rfl h).trans hn)

/-- A word under a mask of the class and NN, from its fields. -/
theorem wordXNN_of_mask {c : BitVec 4} {nn : Byte} (h : w &&& 0xF0FF = p) (hc : fieldC p = c) (hn : fieldNN p = nn) :
    wordXNN c (fieldX w) nn = w :=
  wordXNN_of_class ((fieldC_of_mask rfl h).trans hc) ((fieldNN_of_mask rfl h).trans hn)

end

/-- A word that matches a row is a word of an instruction of the row's name: the mask fixes the fields the pattern
names, and the others are operands. -/
theorem exists_encodeWithY_of_and_mask {w : Word} {m : Mnemonic} (h : w &&& m.row.mask = m.row.pattern) :
    ∃ i y, encodeWithY y i = w ∧ i.mnemonic = m := by
  cases m with
  | clearScreen => exact ⟨.clearScreen, 0, h.symm.trans BitVec.and_allOnes, rfl⟩
  | ret => exact ⟨.ret, 0, h.symm.trans BitVec.and_allOnes, rfl⟩
  | jump => exact ⟨.jump (fieldNNN w), 0, wordNNN_of_class (fieldC_of_mask rfl h), rfl⟩
  | call => exact ⟨.call (fieldNNN w), 0, wordNNN_of_class (fieldC_of_mask rfl h), rfl⟩
  | loadIndex => exact ⟨.loadIndex (fieldNNN w), 0, wordNNN_of_class (fieldC_of_mask rfl h), rfl⟩
  | jumpOffset => exact ⟨.jumpOffset (fieldNNN w), 0, wordNNN_of_class (fieldC_of_mask rfl h), rfl⟩
  | skipEqImm => exact ⟨.skipEqImm (fieldX w) (fieldNN w), 0, wordXNN_of_class (fieldC_of_mask rfl h) rfl, rfl⟩
  | skipNeImm => exact ⟨.skipNeImm (fieldX w) (fieldNN w), 0, wordXNN_of_class (fieldC_of_mask rfl h) rfl, rfl⟩
  | loadImm => exact ⟨.loadImm (fieldX w) (fieldNN w), 0, wordXNN_of_class (fieldC_of_mask rfl h) rfl, rfl⟩
  | addImm => exact ⟨.addImm (fieldX w) (fieldNN w), 0, wordXNN_of_class (fieldC_of_mask rfl h) rfl, rfl⟩
  | random => exact ⟨.random (fieldX w) (fieldNN w), 0, wordXNN_of_class (fieldC_of_mask rfl h) rfl, rfl⟩
  | draw => exact ⟨.draw (fieldX w) (fieldY w) (fieldN w), 0, wordXYN_of_class (fieldC_of_mask rfl h) rfl, rfl⟩
  | skipEqReg => exact ⟨.skipEqReg (fieldX w) (fieldY w), 0, wordXYN_of_mask h rfl rfl, rfl⟩
  | skipNeReg => exact ⟨.skipNeReg (fieldX w) (fieldY w), 0, wordXYN_of_mask h rfl rfl, rfl⟩
  | loadReg => exact ⟨.loadReg (fieldX w) (fieldY w), 0, wordXYN_of_mask h rfl rfl, rfl⟩
  | orReg => exact ⟨.orReg (fieldX w) (fieldY w), 0, wordXYN_of_mask h rfl rfl, rfl⟩
  | andReg => exact ⟨.andReg (fieldX w) (fieldY w), 0, wordXYN_of_mask h rfl rfl, rfl⟩
  | xorReg => exact ⟨.xorReg (fieldX w) (fieldY w), 0, wordXYN_of_mask h rfl rfl, rfl⟩
  | addReg => exact ⟨.addReg (fieldX w) (fieldY w), 0, wordXYN_of_mask h rfl rfl, rfl⟩
  | subReg => exact ⟨.subReg (fieldX w) (fieldY w), 0, wordXYN_of_mask h rfl rfl, rfl⟩
  | subn => exact ⟨.subn (fieldX w) (fieldY w), 0, wordXYN_of_mask h rfl rfl, rfl⟩
  | shr => exact ⟨.shr (fieldX w), fieldY w, wordXYN_of_mask h rfl rfl, rfl⟩
  | shl => exact ⟨.shl (fieldX w), fieldY w, wordXYN_of_mask h rfl rfl, rfl⟩
  | skipKeyDown => exact ⟨.skipKeyDown (fieldX w), 0, wordXNN_of_mask h rfl rfl, rfl⟩
  | skipKeyUp => exact ⟨.skipKeyUp (fieldX w), 0, wordXNN_of_mask h rfl rfl, rfl⟩
  | loadDelay => exact ⟨.loadDelay (fieldX w), 0, wordXNN_of_mask h rfl rfl, rfl⟩
  | waitKey => exact ⟨.waitKey (fieldX w), 0, wordXNN_of_mask h rfl rfl, rfl⟩
  | setDelay => exact ⟨.setDelay (fieldX w), 0, wordXNN_of_mask h rfl rfl, rfl⟩
  | setSound => exact ⟨.setSound (fieldX w), 0, wordXNN_of_mask h rfl rfl, rfl⟩
  | addIndex => exact ⟨.addIndex (fieldX w), 0, wordXNN_of_mask h rfl rfl, rfl⟩
  | loadFontAddr => exact ⟨.loadFontAddr (fieldX w), 0, wordXNN_of_mask h rfl rfl, rfl⟩
  | storeBcd => exact ⟨.storeBcd (fieldX w), 0, wordXNN_of_mask h rfl rfl, rfl⟩
  | storeRegs => exact ⟨.storeRegs (fieldX w), 0, wordXNN_of_mask h rfl rfl, rfl⟩
  | loadRegs => exact ⟨.loadRegs (fieldX w), 0, wordXNN_of_mask h rfl rfl, rfl⟩

/-- A word matches a name's row exactly when it decodes to an instruction of that name. -/
theorem hits_iff_decode (w : Word) (m : Mnemonic) :
    m.row.hits w = true ↔ ∃ i, decode w = .ok i ∧ i.mnemonic = m := by
  rw [TableRow.hits_iff]
  constructor
  · intro h
    obtain ⟨i, y, hw, hm⟩ := exists_encodeWithY_of_and_mask h
    exact ⟨i, decode_eq_ok_iff.mpr ⟨y, hw⟩, hm⟩
  · rintro ⟨i, hd, rfl⟩
    obtain ⟨y, rfl⟩ := decode_eq_ok_iff.mp hd
    exact encodeWithY_and_mask y i

/-- Settles O4: the rows and the decoder agree, and since a word decodes to one instruction it matches one row. -/
theorem decodeAgreesWithTable : Obligations.DecodeAgreesWithTable := by
  refine ⟨hits_iff_decode, fun w m m' h h' => ?_⟩
  obtain ⟨i, hi, rfl⟩ := (hits_iff_decode w m).mp h
  obtain ⟨i', hi', rfl⟩ := (hits_iff_decode w m').mp h'
  rw [Except.ok.inj (hi.symm.trans hi')]

/-! ## The illegal words (30_encoding.md R76, R77) -/

theorem decodeClass0_eq_error_iff (w : Word) :
    decodeClass0 w = .error .unknownOpcode ↔ w ≠ 0x00E0 ∧ w ≠ 0x00EE := by
  unfold decodeClass0
  split_ifs <;> simp_all

theorem decodeClass5_eq_error_iff (w : Word) : decodeClass5 w = .error .unknownOpcode ↔ fieldN w ≠ 0 := by
  unfold decodeClass5
  split_ifs <;> simp_all

theorem decodeClass8_eq_error_iff (w : Word) : decodeClass8 w = .error .unknownOpcode ↔
    fieldN w ∈ ([0x8, 0x9, 0xA, 0xB, 0xC, 0xD, 0xF] : List (BitVec 4)) := by
  have hcompl : ∀ n : BitVec 4, n ∈ ([0x8, 0x9, 0xA, 0xB, 0xC, 0xD, 0xF] : List (BitVec 4)) ↔
      n ∉ ([0x0, 0x1, 0x2, 0x3, 0x4, 0x5, 0x6, 0x7, 0xE] : List (BitVec 4)) := by decide
  rw [hcompl, decodeClass8]
  split_ifs <;> simp_all

theorem decodeClass9_eq_error_iff (w : Word) : decodeClass9 w = .error .unknownOpcode ↔ fieldN w ≠ 0 := by
  unfold decodeClass9
  split_ifs <;> simp_all

theorem decodeClassE_eq_error_iff (w : Word) :
    decodeClassE w = .error .unknownOpcode ↔ fieldNN w ∉ ([0x9E, 0xA1] : List Byte) := by
  unfold decodeClassE
  split_ifs <;> simp_all

theorem decodeClassF_eq_error_iff (w : Word) : decodeClassF w = .error .unknownOpcode ↔
    fieldNN w ∉ ([0x07, 0x0A, 0x15, 0x18, 0x1E, 0x29, 0x33, 0x55, 0x65] : List Byte) := by
  unfold decodeClassF
  split_ifs <;> simp_all

/-- Settles O5: class by class, a class without an illegal word decodes every word, and each other class refuses what
its own clause of the map names. -/
theorem illegalWordsExactly : Obligations.IllegalWordsExactly := by
  intro w
  rcases nibble_cases (fieldC w) with hC | hC | hC | hC | hC | hC | hC | hC | hC | hC | hC | hC | hC | hC | hC | hC
  · rw [decode_class0 hC, decodeClass0_eq_error_iff]
    simp [hC]
  · simp [decode_class1 hC, hC]
  · simp [decode_class2 hC, hC]
  · simp [decode_class3 hC, hC]
  · simp [decode_class4 hC, hC]
  · rw [decode_class5 hC, decodeClass5_eq_error_iff]
    simp [hC]
  · simp [decode_class6 hC, hC]
  · simp [decode_class7 hC, hC]
  · rw [decode_class8 hC, decodeClass8_eq_error_iff]
    simp [hC]
  · rw [decode_class9 hC, decodeClass9_eq_error_iff]
    simp [hC]
  · simp [decode_classA hC, hC]
  · simp [decode_classB hC, hC]
  · simp [decode_classC hC, hC]
  · simp [decode_classD hC, hC]
  · rw [decode_classE hC, decodeClassE_eq_error_iff]
    simp [hC]
  · rw [decode_classF hC, decodeClassF_eq_error_iff]
    simp [hC]

/-- Settles O1: the decoder run on each word. -/
theorem sampleWordsDecode : Obligations.SampleWordsDecode := by
  unfold Obligations.SampleWordsDecode
  and_intros <;> decide

end Sys2Proof
end

section
/-! Proof of the assembler statement (30_encoding.md R90). -/

namespace Sys2Proof

/-! ## What each operand position takes -/

@[simp] theorem checkOperand_reg (x : RegIdx) : checkOperand .reg (.reg x.val) = none := if_pos x.isLt

@[simp] theorem checkOperand_addr (nnn : BitVec 12) : checkOperand .addr (.num nnn.toNat) = none :=
  if_pos (Nat.le_of_lt_succ nnn.isLt)

@[simp] theorem checkOperand_imm (nn : Byte) : checkOperand .imm (.num nn.toNat) = none :=
  if_pos (Nat.le_of_lt_succ nn.isLt)

@[simp] theorem checkOperand_rows (n : BitVec 4) : checkOperand .rows (.num n.toNat) = none :=
  if_pos (Nat.le_of_lt_succ n.isLt)

/-- A register position takes nothing but registers. -/
theorem eq_reg_of_checkOperand {o : AsmOperand} (h : checkOperand .reg o = none) : ∃ x : RegIdx, o = .reg x.val := by
  cases o with
  | reg n => exact ⟨⟨n, by simpa [checkOperand] using h⟩, rfl⟩
  | num n => cases h

/-- An address position takes nothing but 12-bit numbers. -/
theorem eq_addr_of_checkOperand {o : AsmOperand} (h : checkOperand .addr o = none) :
    ∃ nnn : BitVec 12, o = .num nnn.toNat := by
  cases o with
  | reg n => cases h
  | num n => exact ⟨.ofNatLT n (Nat.lt_succ_of_le (by simpa [checkOperand] using h)), rfl⟩

/-- An immediate position takes nothing but bytes. -/
theorem eq_imm_of_checkOperand {o : AsmOperand} (h : checkOperand .imm o = none) : ∃ nn : Byte, o = .num nn.toNat := by
  cases o with
  | reg n => cases h
  | num n => exact ⟨.ofNatLT n (Nat.lt_succ_of_le (by simpa [checkOperand] using h)), rfl⟩

/-- A row count position takes nothing but nibbles. -/
theorem eq_rows_of_checkOperand {o : AsmOperand} (h : checkOperand .rows o = none) :
    ∃ n : BitVec 4, o = .num n.toNat := by
  cases o with
  | reg n => cases h
  | num n => exact ⟨.ofNatLT n (Nat.lt_succ_of_le (by simpa [checkOperand] using h)), rfl⟩

/-! ## The operand lists that pass the checks, by the kinds of their positions -/

/-- No operand is left where no position is. -/
theorem eq_nil_of_checkOperands {os : List AsmOperand} (h : checkOperands [] os = none) : os = [] := by
  cases os with
  | nil => rfl
  | cons o os => cases h

/-- The first position's operand passes its check, and the others theirs. -/
theorem eq_cons_of_checkOperands {k : OperandKind} {ks : List OperandKind} {os : List AsmOperand}
    (h : checkOperands (k :: ks) os = none) :
    ∃ o os', os = o :: os' ∧ checkOperand k o = none ∧ checkOperands ks os' = none := by
  cases os with
  | nil => cases h
  | cons o os =>
    rw [checkOperands] at h
    split at h
    · cases h
    · exact ⟨o, os, rfl, ‹_›, h⟩

/-- One position takes one operand, which passes its check. -/
theorem eq_singleton_of_checkOperands {k : OperandKind} {os : List AsmOperand} (h : checkOperands [k] os = none) :
    ∃ o, os = [o] ∧ checkOperand k o = none := by
  obtain ⟨o, os, rfl, ho, hos⟩ := eq_cons_of_checkOperands h
  exact ⟨o, by rw [eq_nil_of_checkOperands hos], ho⟩

theorem eq_of_checkOperands_addr {os : List AsmOperand} (h : checkOperands [.addr] os = none) :
    ∃ nnn : BitVec 12, os = [.num nnn.toNat] := by
  obtain ⟨o, rfl, ho⟩ := eq_singleton_of_checkOperands h
  obtain ⟨nnn, rfl⟩ := eq_addr_of_checkOperand ho
  exact ⟨nnn, rfl⟩

theorem eq_of_checkOperands_reg {os : List AsmOperand} (h : checkOperands [.reg] os = none) :
    ∃ x : RegIdx, os = [.reg x.val] := by
  obtain ⟨o, rfl, ho⟩ := eq_singleton_of_checkOperands h
  obtain ⟨x, rfl⟩ := eq_reg_of_checkOperand ho
  exact ⟨x, rfl⟩

theorem eq_of_checkOperands_reg_imm {os : List AsmOperand} (h : checkOperands [.reg, .imm] os = none) :
    ∃ (x : RegIdx) (nn : Byte), os = [.reg x.val, .num nn.toNat] := by
  obtain ⟨o, ps, rfl, ho, hps⟩ := eq_cons_of_checkOperands h
  obtain ⟨p, rfl, hp⟩ := eq_singleton_of_checkOperands hps
  obtain ⟨x, rfl⟩ := eq_reg_of_checkOperand ho
  obtain ⟨nn, rfl⟩ := eq_imm_of_checkOperand hp
  exact ⟨x, nn, rfl⟩

theorem eq_of_checkOperands_reg_reg {os : List AsmOperand} (h : checkOperands [.reg, .reg] os = none) :
    ∃ x y : RegIdx, os = [.reg x.val, .reg y.val] := by
  obtain ⟨o, ps, rfl, ho, hps⟩ := eq_cons_of_checkOperands h
  obtain ⟨x, rfl⟩ := eq_reg_of_checkOperand ho
  obtain ⟨y, rfl⟩ := eq_of_checkOperands_reg hps
  exact ⟨x, y, rfl⟩

theorem eq_of_checkOperands_reg_reg_rows {os : List AsmOperand} (h : checkOperands [.reg, .reg, .rows] os = none) :
    ∃ (x y : RegIdx) (n : BitVec 4), os = [.reg x.val, .reg y.val, .num n.toNat] := by
  obtain ⟨o, ps, rfl, ho, hps⟩ := eq_cons_of_checkOperands h
  obtain ⟨p, qs, rfl, hp, hqs⟩ := eq_cons_of_checkOperands hps
  obtain ⟨q, rfl, hq⟩ := eq_singleton_of_checkOperands hqs
  obtain ⟨x, rfl⟩ := eq_reg_of_checkOperand ho
  obtain ⟨y, rfl⟩ := eq_reg_of_checkOperand hp
  obtain ⟨n, rfl⟩ := eq_rows_of_checkOperand hq
  exact ⟨x, y, n, rfl⟩

/-! ## The written form and back -/

@[simp] theorem regOfNat_val (x : RegIdx) : regOfNat x.val = x := Fin.ofNat_val_eq_self x

/-- Every operand of a written form passes its check. -/
theorem problem_disassemble (i : Instr) : (disassemble i).problem = none := by
  cases i <;> simp [disassemble, AsmLine.problem, Mnemonic.operandKinds, checkOperands]

/-- A written form's name and operands build the instruction. -/
theorem buildInstr_disassemble (i : Instr) : buildInstr (disassemble i).op (disassemble i).operands = some i := by
  cases i <;> simp [disassemble, buildInstr]

theorem assemble_disassemble (i : Instr) : assemble (disassemble i) = .ok i := by
  simp only [assemble, problem_disassemble, buildInstr_disassemble]

/-- A line that passes its checks is the written form of the instruction with its operands. -/
theorem exists_disassemble_eq {m : Mnemonic} {os : List AsmOperand} (h : checkOperands m.operandKinds os = none) :
    ∃ i, disassemble i = ⟨m, os⟩ := by
  cases m with
  | clearScreen =>
    obtain rfl := eq_nil_of_checkOperands h
    exact ⟨.clearScreen, rfl⟩
  | ret =>
    obtain rfl := eq_nil_of_checkOperands h
    exact ⟨.ret, rfl⟩
  | jump =>
    obtain ⟨nnn, rfl⟩ := eq_of_checkOperands_addr h
    exact ⟨.jump nnn, rfl⟩
  | call =>
    obtain ⟨nnn, rfl⟩ := eq_of_checkOperands_addr h
    exact ⟨.call nnn, rfl⟩
  | loadIndex =>
    obtain ⟨nnn, rfl⟩ := eq_of_checkOperands_addr h
    exact ⟨.loadIndex nnn, rfl⟩
  | jumpOffset =>
    obtain ⟨nnn, rfl⟩ := eq_of_checkOperands_addr h
    exact ⟨.jumpOffset nnn, rfl⟩
  | skipEqImm =>
    obtain ⟨x, nn, rfl⟩ := eq_of_checkOperands_reg_imm h
    exact ⟨.skipEqImm x nn, rfl⟩
  | skipNeImm =>
    obtain ⟨x, nn, rfl⟩ := eq_of_checkOperands_reg_imm h
    exact ⟨.skipNeImm x nn, rfl⟩
  | loadImm =>
    obtain ⟨x, nn, rfl⟩ := eq_of_checkOperands_reg_imm h
    exact ⟨.loadImm x nn, rfl⟩
  | addImm =>
    obtain ⟨x, nn, rfl⟩ := eq_of_checkOperands_reg_imm h
    exact ⟨.addImm x nn, rfl⟩
  | random =>
    obtain ⟨x, nn, rfl⟩ := eq_of_checkOperands_reg_imm h
    exact ⟨.random x nn, rfl⟩
  | skipEqReg =>
    obtain ⟨x, y, rfl⟩ := eq_of_checkOperands_reg_reg h
    exact ⟨.skipEqReg x y, rfl⟩
  | skipNeReg =>
    obtain ⟨x, y, rfl⟩ := eq_of_checkOperands_reg_reg h
    exact ⟨.skipNeReg x y, rfl⟩
  | loadReg =>
    obtain ⟨x, y, rfl⟩ := eq_of_checkOperands_reg_reg h
    exact ⟨.loadReg x y, rfl⟩
  | orReg =>
    obtain ⟨x, y, rfl⟩ := eq_of_checkOperands_reg_reg h
    exact ⟨.orReg x y, rfl⟩
  | andReg =>
    obtain ⟨x, y, rfl⟩ := eq_of_checkOperands_reg_reg h
    exact ⟨.andReg x y, rfl⟩
  | xorReg =>
    obtain ⟨x, y, rfl⟩ := eq_of_checkOperands_reg_reg h
    exact ⟨.xorReg x y, rfl⟩
  | addReg =>
    obtain ⟨x, y, rfl⟩ := eq_of_checkOperands_reg_reg h
    exact ⟨.addReg x y, rfl⟩
  | subReg =>
    obtain ⟨x, y, rfl⟩ := eq_of_checkOperands_reg_reg h
    exact ⟨.subReg x y, rfl⟩
  | subn =>
    obtain ⟨x, y, rfl⟩ := eq_of_checkOperands_reg_reg h
    exact ⟨.subn x y, rfl⟩
  | draw =>
    obtain ⟨x, y, n, rfl⟩ := eq_of_checkOperands_reg_reg_rows h
    exact ⟨.draw x y n, rfl⟩
  | shr =>
    obtain ⟨x, rfl⟩ := eq_of_checkOperands_reg h
    exact ⟨.shr x, rfl⟩
  | shl =>
    obtain ⟨x, rfl⟩ := eq_of_checkOperands_reg h
    exact ⟨.shl x, rfl⟩
  | skipKeyDown =>
    obtain ⟨x, rfl⟩ := eq_of_checkOperands_reg h
    exact ⟨.skipKeyDown x, rfl⟩
  | skipKeyUp =>
    obtain ⟨x, rfl⟩ := eq_of_checkOperands_reg h
    exact ⟨.skipKeyUp x, rfl⟩
  | loadDelay =>
    obtain ⟨x, rfl⟩ := eq_of_checkOperands_reg h
    exact ⟨.loadDelay x, rfl⟩
  | waitKey =>
    obtain ⟨x, rfl⟩ := eq_of_checkOperands_reg h
    exact ⟨.waitKey x, rfl⟩
  | setDelay =>
    obtain ⟨x, rfl⟩ := eq_of_checkOperands_reg h
    exact ⟨.setDelay x, rfl⟩
  | setSound =>
    obtain ⟨x, rfl⟩ := eq_of_checkOperands_reg h
    exact ⟨.setSound x, rfl⟩
  | addIndex =>
    obtain ⟨x, rfl⟩ := eq_of_checkOperands_reg h
    exact ⟨.addIndex x, rfl⟩
  | loadFontAddr =>
    obtain ⟨x, rfl⟩ := eq_of_checkOperands_reg h
    exact ⟨.loadFontAddr x, rfl⟩
  | storeBcd =>
    obtain ⟨x, rfl⟩ := eq_of_checkOperands_reg h
    exact ⟨.storeBcd x, rfl⟩
  | storeRegs =>
    obtain ⟨x, rfl⟩ := eq_of_checkOperands_reg h
    exact ⟨.storeRegs x, rfl⟩
  | loadRegs =>
    obtain ⟨x, rfl⟩ := eq_of_checkOperands_reg h
    exact ⟨.loadRegs x, rfl⟩

/-- Settles O6: the written form passes every check and builds its instruction, and a line that passes its checks is the
written form of an instruction. -/
theorem assemblerRoundTrip : Obligations.AssemblerRoundTrip := by
  constructor
  · intro i
    exact ⟨beq_iff_eq.mpr (problem_disassemble i), assemble_disassemble i⟩
  · rintro ⟨m, os⟩ hl
    obtain ⟨i, hi⟩ := exists_disassemble_eq (beq_iff_eq.mp hl : checkOperands m.operandKinds os = none)
    exact ⟨i, hi ▸ assemble_disassemble i, hi⟩

end Sys2Proof
end

section
/-! Proofs of the statements on the call stack, the jump with an offset, the skips on registers and keys, and `wait-key`
(41_control_flow.md, 46_keypad.md). -/

namespace Sys2Proof.Machine

/-- The meaning of `jump-offset` (41_control_flow.md R108). -/
theorem exec_jumpOffset (nnn : BitVec 12) (s : State) :
    exec (.jumpOffset nnn) s = .next (s.setPc (offsetTarget nnn s.v[(0 : RegIdx)])) := rfl

/-- The meaning of `skip-eq-reg` (41_control_flow.md R106). -/
theorem exec_skipEqReg (x y : RegIdx) (s : State) :
    exec (.skipEqReg x y) s = .next (s.skipIf (s.v[x] == s.v[y])) := rfl

/-- The meaning of `skip-ne-reg` (41_control_flow.md R107). -/
theorem exec_skipNeReg (x y : RegIdx) (s : State) :
    exec (.skipNeReg x y) s = .next (s.skipIf (s.v[x] != s.v[y])) := rfl

/-- The meaning of `skip-key-down` (46_keypad.md R201). -/
theorem exec_skipKeyDown (x : RegIdx) (s : State) :
    exec (.skipKeyDown x) s = .next (s.skipIf s.keys[keyOf s.v[x]]) := rfl

/-- The meaning of `skip-key-up` (46_keypad.md R202). -/
theorem exec_skipKeyUp (x : RegIdx) (s : State) :
    exec (.skipKeyUp x) s = .next (s.skipIf (!s.keys[keyOf s.v[x]])) := rfl

/-- The meaning of `wait-key` (46_keypad.md R203). -/
theorem exec_waitKey (x : RegIdx) (s : State) : exec (.waitKey x) s = .next (s.setRunState (.waitingForKey x)) := rfl

/-- A register value names the key of its low nibble (46_keypad.md R200). -/
theorem keyOf_eq {b : Byte} {k : KeyIdx} (h : k.val = b.toNat % 16) : keyOf b = k :=
  Fin.ext ((Nat.mod_mod _ 16).trans h.symm)

/-- Settles O16: the sum fits in 16 bits, and the frame is that of `exec`. -/
theorem jumpOffsetSetsPc : Obligations.JumpOffsetSetsPc := by
  intro nnn s
  exact ⟨_, exec_jumpOffset nnn s, offsetTarget_toNat nnn _, exec_sameExcept (exec_jumpOffset nnn s)⟩

/-- Settles O17: with room the push writes the entry at SP alone, and a full stack faults. -/
theorem callPushesAndJumps : Obligations.CallPushesAndJumps := by
  intro nnn s
  refine ⟨fun hsp => ⟨_, exec_call_of_lt nnn s hsp, addressOf_toNat nnn, rfl, fun k => ?stack, ?frame⟩,
    exec_call_full nnn s⟩
  case stack => simp only [Fin.getElem_fin, Vector.getElem_set, eq_comm]
  case frame => constructor <;> simp

/-- Settles O18: with an entry the pop reads the one below SP and writes SP and pc alone, and an empty stack faults. -/
theorem returnPopsIntoPc : Obligations.ReturnPopsIntoPc := by
  intro s
  refine ⟨fun hsp => ⟨_, exec_ret_of_pos s hsp, rfl, fun k hk => ?entry, ?frame⟩, exec_ret_empty s⟩
  case entry => simp only [Fin.getElem_fin, hk]
  case frame => constructor <;> simp

/-- Settles O19: the call leaves SP above the entry that holds its pc, and `return` pops that entry. -/
theorem callReturnRoundTrip : Obligations.CallReturnRoundTrip := by
  intro nnn s t u k hk hcall husp hustack
  have hsp : s.sp.val < 16 := hk ▸ k.isLt
  obtain ⟨t', hcall', -, htsp, htstack, -⟩ := (callPushesAndJumps nnn s).1 hsp
  obtain rfl := Host.Outcome.next.inj (hcall.symm.trans hcall')
  have husp' : u.sp.val = s.sp.val + 1 := (congrArg Fin.val husp).trans htsp
  obtain ⟨r, hret, hrsp, hrpc, -⟩ := (returnPopsIntoPc u).1 (by omega)
  refine ⟨r, hret, ?_, Fin.ext (by omega)⟩
  rw [hrpc k (by omega), hustack, htstack k, if_pos hk]

/-- Settles O21: each skip is `skipIf` on its comparison, and the frame is that of `exec`. -/
theorem skipsOnRegisters : Obligations.SkipsOnRegisters := by
  intro x y s
  constructor
  · exact ⟨_, exec_skipEqReg x y s, State.skipIf_beq_pc s _ _, exec_sameExcept (exec_skipEqReg x y s)⟩
  · exact ⟨_, exec_skipNeReg x y s, State.skipIf_bne_pc s _ _, exec_sameExcept (exec_skipNeReg x y s)⟩

/-- Settles O22: each skip is `skipIf` on the named key, and the frame is that of `exec`. -/
theorem skipsOnKey : Obligations.SkipsOnKey := by
  intro x k s hk
  obtain rfl := keyOf_eq hk
  constructor
  · exact ⟨_, exec_skipKeyDown x s, State.skipIf_pc s _, exec_sameExcept (exec_skipKeyDown x s)⟩
  · refine ⟨_, exec_skipKeyUp x s, ?_, exec_sameExcept (exec_skipKeyUp x s)⟩
    rw [State.skipIf_pc]
    cases s.keys[keyOf s.v[x]] <;> rfl

/-- Settles O23: the run state is replaced, and the frame is that of `exec`. -/
theorem waitKeyEntersWaiting : Obligations.WaitKeyEntersWaiting :=
  fun x s => ⟨_, exec_waitKey x s, rfl, exec_sameExcept (exec_waitKey x s)⟩

end Sys2Proof.Machine
end

section
/-! Proofs of the register and ALU statements (42_register_alu.md): logic, addition, subtraction, shifts, and the
registers each instruction may write. -/

namespace Sys2Proof.Machine

/-- The meaning of `or` (42_register_alu.md R124). -/
theorem exec_orReg (x y : RegIdx) (s : State) : exec (.orReg x y) s = .next (s.writeV x (s.v[x] ||| s.v[y])) := rfl

/-- The meaning of `and` (42_register_alu.md R125). -/
theorem exec_andReg (x y : RegIdx) (s : State) : exec (.andReg x y) s = .next (s.writeV x (s.v[x] &&& s.v[y])) := rfl

/-- The meaning of `xor` (42_register_alu.md R126). -/
theorem exec_xorReg (x y : RegIdx) (s : State) : exec (.xorReg x y) s = .next (s.writeV x (s.v[x] ^^^ s.v[y])) := rfl

/-- The meaning of `add-reg` (42_register_alu.md R127). -/
theorem exec_addReg (x y : RegIdx) (s : State) : exec (.addReg x y) s =
    .next (s.writeFlagThenV x (carryFlag s.v[x] s.v[y]) (sumByte s.v[x] s.v[y])) := rfl

/-- The meaning of `sub-reg` (42_register_alu.md R128). -/
theorem exec_subReg (x y : RegIdx) (s : State) : exec (.subReg x y) s =
    .next (s.writeFlagThenV x (noBorrowFlag s.v[x] s.v[y]) (diffByte s.v[x] s.v[y])) := rfl

/-- The meaning of `subn` (42_register_alu.md R130). -/
theorem exec_subn (x y : RegIdx) (s : State) : exec (.subn x y) s =
    .next (s.writeFlagThenV x (noBorrowFlag s.v[y] s.v[x]) (diffByte s.v[y] s.v[x])) := rfl

/-- The meaning of `shr` (42_register_alu.md R129). -/
theorem exec_shr (x : RegIdx) (s : State) :
    exec (.shr x) s = .next (s.writeFlagThenV x (lowBitFlag s.v[x]) (shiftedRight s.v[x])) := rfl

/-- The meaning of `shl` (42_register_alu.md R131). -/
theorem exec_shl (x : RegIdx) (s : State) :
    exec (.shl x) s = .next (s.writeFlagThenV x (highBitFlag s.v[x]) (shiftedLeft s.v[x])) := rfl

theorem carryFlag_toNat (a b : Byte) : (carryFlag a b).toNat = if 255 < a.toNat + b.toNat then 1 else 0 := by
  simp only [carryFlag, flagOf_toNat, decide_eq_true_eq, gt_iff_lt]

theorem noBorrowFlag_toNat (a b : Byte) : (noBorrowFlag a b).toNat = if b.toNat ≤ a.toNat then 1 else 0 := by
  simp only [noBorrowFlag, flagOf_toNat, decide_eq_true_eq, ge_iff_le]

theorem State.getElem_writeFlagThenV_same (s : State) (x : RegIdx) (flag b : Byte) :
    (s.writeFlagThenV x flag b).v[x] = b := by
  rw [State.getElem_writeFlagThenV, if_pos rfl]

theorem State.getElem_writeFlagThenV_VF (s : State) {x : RegIdx} (hx : x ≠ VF) (flag b : Byte) :
    (s.writeFlagThenV x flag b).v[VF] = flag := by
  rw [State.getElem_writeFlagThenV, if_neg hx.symm, if_pos rfl]

/-- The flag write and the result write leave every register but V[x] and VF as it was. -/
theorem State.writeFlagThenV_regsExcept (s : State) (x : RegIdx) (flag b : Byte) :
    RegsExcept [x, VF] s (s.writeFlagThenV x flag b) := by
  intro r hr
  rw [State.getElem_writeFlagThenV, if_neg (List.ne_of_not_mem_cons hr),
    if_neg (List.ne_of_not_mem_cons (List.not_mem_of_not_mem_cons hr))]

/-- The flag write and the result write leave every other piece of state. -/
theorem State.writeFlagThenV_sameExcept (s : State) (x : RegIdx) (flag b : Byte) :
    SameExcept [.v] s (s.writeFlagThenV x flag b) := by
  constructor <;> simp

/-- What an instruction does that writes a flag and then its result: the result in V[x], the flag in VF unless the
result went there (00_scope.md R12, decision D6). -/
theorem exec_flagThenV {i : Instr} {s : State} {x : RegIdx} {flag b : Byte} {f r : Nat}
    (hexec : exec i s = .next (s.writeFlagThenV x flag b)) (hb : b.toNat = r) (hflag : flag.toNat = f) :
    ∃ t, exec i s = .next t ∧ t.v[x].toNat = r ∧ (x ≠ VF → t.v[VF].toNat = f) ∧
      RegsExcept [x, VF] s t ∧ SameExcept [.v] s t := by
  refine ⟨_, hexec, ?_, fun hx => ?_, s.writeFlagThenV_regsExcept x flag b, s.writeFlagThenV_sameExcept x flag b⟩
  · rw [State.getElem_writeFlagThenV_same, hb]
  · rw [State.getElem_writeFlagThenV_VF s hx, hflag]

/-- Settles O26: each operation is one register write of the bitwise combination, and the frame is that of `exec`. -/
theorem logicOperations : Obligations.LogicOperations := by
  intro x y s
  refine ⟨?or, ?and, ?xor⟩
  case or =>
    refine ⟨_, exec_orReg x y s, fun b _ => ?_, s.writeV_regsExcept x _, exec_sameExcept (exec_orReg x y s)⟩
    rw [State.getElem_writeV_same, BitVec.getLsbD_or]
  case and =>
    refine ⟨_, exec_andReg x y s, fun b _ => ?_, s.writeV_regsExcept x _, exec_sameExcept (exec_andReg x y s)⟩
    rw [State.getElem_writeV_same, BitVec.getLsbD_and]
  case xor =>
    refine ⟨_, exec_xorReg x y s, fun b _ => ?_, s.writeV_regsExcept x _, exec_sameExcept (exec_xorReg x y s)⟩
    rw [State.getElem_writeV_same, BitVec.getLsbD_xor]

/-- Settles O27: the sum byte, after the carry flag. -/
theorem addRegSumAndCarry : Obligations.AddRegSumAndCarry :=
  fun x y s => exec_flagThenV (exec_addReg x y s) (sumByte_toNat _ _) (carryFlag_toNat _ _)

/-- Settles O28: the difference byte of each order of the operands, after its no-borrow flag. -/
theorem subtractionsAndNoBorrow : Obligations.SubtractionsAndNoBorrow :=
  fun x y s => ⟨exec_flagThenV (exec_subReg x y s) (diffByte_toNat _ _) (noBorrowFlag_toNat _ _),
    exec_flagThenV (exec_subn x y s) (diffByte_toNat _ _) (noBorrowFlag_toNat _ _)⟩

/-- Settles O29: the value shifted by one, after the bit shifted out. -/
theorem shiftsAndShiftedOutBit : Obligations.ShiftsAndShiftedOutBit :=
  fun x s => ⟨exec_flagThenV (exec_shr x s) (shiftedRight_toNat _) (lowBitFlag_toNat _),
    exec_flagThenV (exec_shl x s) (shiftedLeft_toNat _) (highBitFlag_toNat _)⟩

/-- Unchanged registers are unchanged outside any list. -/
theorem regsExcept_of_v_eq {regs : List RegIdx} {s t : State} (h : t.v = s.v) : RegsExcept regs s t := by
  intro r _
  rw [h]

theorem RegsExcept.swap {a b : RegIdx} {s t : State} (h : RegsExcept [a, b] s t) : RegsExcept [b, a] s t :=
  fun r hr => h r fun hr' => hr ((List.Perm.swap b a []).mem_iff.mp hr')

/-- A load of V0 to V[x] leaves the registers above x. -/
theorem State.setV_loadedRegs_regsExcept (s : State) (m : Memory) (a : Nat) (x : RegIdx) :
    RegsExcept ((List.finRange 16).filter (· ≤ x)) s (s.setV (loadedRegs m a x s.v)) := by
  intro r hr
  have hrx : ¬ r ≤ x := fun h => hr (List.mem_filter.mpr ⟨List.mem_finRange r, decide_eq_true h⟩)
  rw [State.setV_v, getElem_loadedRegs, if_neg hrx]

/-- A checked effect writes no register the effect does not. -/
theorem regsExcept_check {c : Bool} {f : FaultKind} {regs : List RegIdx} {s t u : State}
    (h : check c f s t = .next u) (ht : RegsExcept regs s t) : RegsExcept regs s u := by
  obtain ⟨-, rfl⟩ | ⟨-, rfl⟩ := check_eq_next.mp h
  · exact ht
  · exact regsExcept_of_v_eq rfl

/-- Settles O30: an instruction writes one register, or VF and one register, or V0 to V[x], or by its frame none. -/
theorem registersWrittenOnlyAsListed : Obligations.RegistersWrittenOnlyAsListed := by
  intro i s t h
  cases i with
  | loadImm x | addImm x | loadReg x | orReg x | andReg x | xorReg x | loadDelay x | random x =>
    cases h
    exact State.writeV_regsExcept _ x _
  | addReg x | subReg x | shr x | subn x | shl x =>
    cases h
    exact (s.writeFlagThenV_regsExcept x _ _).swap
  | draw x y n => exact regsExcept_check h (State.writeV_regsExcept _ VF _)
  | loadRegs x => exact regsExcept_check h (s.setV_loadedRegs_regsExcept s.mem _ x)
  | _ => exact regsExcept_of_v_eq ((exec_sameExcept h).v (by simp [touches]))

end Sys2Proof.Machine
end

section
/-! Proofs of the index and memory statements (43_index_memory.md): arithmetic on I, the store and the load of registers,
stored code, and the canonical form of memory. -/

namespace Sys2Proof.Machine

/-- The meaning of `add-index` (43_index_memory.md R142). -/
theorem exec_addIndex (x : RegIdx) (s : State) : exec (.addIndex x) s = .next (s.setI (s.i + widen s.v[x])) := rfl

/-- The meaning of `load-font-addr` (43_index_memory.md R143). -/
theorem exec_loadFontAddr (x : RegIdx) (s : State) :
    exec (.loadFontAddr x) s = .next (s.setI (BitVec.ofNat 16 (glyphAddress (lowNibble s.v[x])))) := rfl

/-- The meaning of `store-regs` (43_index_memory.md R145). -/
theorem exec_storeRegs (x : RegIdx) (s : State) :
    exec (.storeRegs x) s = check (inBounds (effectiveAddress s x.val)) .outOfBounds s
      (s.setMem (s.mem.writeBytes (effectiveAddress s 0) (regsUpTo s.v x))) := rfl

/-- The meaning of `load-regs` (43_index_memory.md R146). -/
theorem exec_loadRegs (x : RegIdx) (s : State) :
    exec (.loadRegs x) s = check (inBounds (effectiveAddress s x.val)) .outOfBounds s
      (s.setV (loadedRegs s.mem (effectiveAddress s 0) x s.v)) := rfl

/-- Settles O32: the sum wraps at 16 bits, the glyph's address is below 80, and the frames are those of `exec`. -/
theorem indexArithmetic : Obligations.IndexArithmetic := by
  intro x s
  have hsum : (s.i + widen s.v[x]).toNat = (s.i.toNat + s.v[x].toNat) % 65536 := by
    rw [BitVec.toNat_add, widen_toNat]
  have hglyph : (BitVec.ofNat 16 (glyphAddress (lowNibble s.v[x]))).toNat = 0x000 + 5 * (s.v[x].toNat % 16) :=
    Nat.mod_eq_of_lt (by simp only [glyphAddress, fontBase, lowNibble]; omega)
  exact ⟨⟨_, exec_addIndex x s, hsum, exec_sameExcept (exec_addIndex x s)⟩,
    ⟨_, exec_loadFontAddr x s, hglyph, exec_sameExcept (exec_loadFontAddr x s)⟩⟩

/-- Settles O34: in bounds register k is read back k above I, and the store's own frame gives the rest; out of bounds
the check leaves only the fault. -/
theorem storeRegsStoresRegisters : Obligations.StoreRegsStoresRegisters := by
  intro x s hm
  have hexec := exec_storeRegs x s
  have hlen := length_regsUpTo s.v x
  constructor
  · intro hin
    rw [check_inBounds_of_le hin] at hexec
    refine ⟨_, hexec, fun k hk => ?_, hlen ▸ State.setMem_writeBytes_memExcept hm _ _, s.setMem_sameExcept _⟩
    have hklt : k.val < (regsUpTo s.v x).length := hlen ▸ Nat.lt_succ_of_le hk
    exact (Memory.read_writeBytes_add hm _ hklt).trans (getD_regsUpTo s.v x k hk)
  · intro hout
    exact hexec.trans (check_inBounds_of_gt hout _ _ _)

/-- Settles O35: in bounds the registers up to X are the bytes from I up, and the others stay; out of bounds the check
leaves only the fault. -/
theorem loadRegsLoadsRegisters : Obligations.LoadRegsLoadsRegisters := by
  intro x s
  have hexec := exec_loadRegs x s
  constructor
  · intro hin
    rw [check_inBounds_of_le hin] at hexec
    exact ⟨_, hexec, fun k => getElem_loadedRegs s.mem _ x k s.v, by constructor <;> simp⟩
  · intro hout
    exact hexec.trans (check_inBounds_of_gt hout _ _ _)

/-- A word from its bytes, the first the more significant (20_memory.md R57). -/
theorem wordOfBytes_toNat (hi lo : Byte) : (wordOfBytes hi lo).toNat = hi.toNat * 256 + lo.toNat := by
  rw [wordOfBytes, BitVec.toNat_append, ← Nat.shiftLeft_add_eq_or_of_lt lo.isLt, Nat.shiftLeft_eq]

/-- Settles O36: `store-regs` puts V0 and V1 at the old I and the byte after it, and the fetch reads them as a word. -/
theorem storedCodeIsFetched : Obligations.StoredCodeIsFetched := by
  intro x s t hm hx hin h
  obtain ⟨t', hexec, hread, -⟩ := (storeRegsStoresRegisters x s hm).1 hin
  obtain rfl := Host.Outcome.next.inj (h.symm.trans hexec)
  have h0 : t.mem.read s.i.toNat = s.v[(0 : RegIdx)] := hread 0 (Fin.zero_le x)
  have h1 : t.mem.read (s.i.toNat + 1) = s.v[(1 : RegIdx)] := hread 1 hx
  rw [fetchWord, Memory.readWord, wordOfBytes_toNat, h0, h1]

/-! ## The canonical form (log 3) -/

/-- An address below every listed cell reads as its reset content. -/
theorem Memory.read_of_lt {m : Memory} {a : Nat} (h : ∀ c ∈ m, a < c.1) : m.read a = resetByte a := by
  induction m with
  | nil => rfl
  | cons c m ih =>
    have hc : a < c.1 := h c List.mem_cons_self
    rw [Memory.read, if_neg (Nat.ne_of_lt hc), ih fun d hd => h d (List.mem_cons_of_mem c hd)]

/-- The first cell of a memory in canonical form lies below the others, differs from the reset content, and leaves a
memory in canonical form. -/
theorem Memory.wf_cons {c : Host.Cell} {m : Memory} (h : Memory.wf (c :: m)) :
    (∀ d ∈ m, c.1 < d.1) ∧ c.2 ≠ resetByte c.1 ∧ m.wf := by
  obtain ⟨hsorted, hcells⟩ := h
  obtain ⟨hlt, hsorted⟩ := List.pairwise_cons.mp hsorted
  exact ⟨hlt, (hcells c List.mem_cons_self).2, hsorted, fun d hd => hcells d (List.mem_cons_of_mem c hd)⟩

theorem Memory.read_head (c : Host.Cell) (m : Memory) : Memory.read (c :: m) c.1 = c.2 := if_pos rfl

/-- A memory whose first cell differs from the reset content does not read there as one whose cells all lie above. -/
theorem Memory.read_head_ne {c : Host.Cell} {m m' : Memory} (h : Memory.wf (c :: m)) (h' : ∀ d ∈ m', c.1 < d.1) :
    Memory.read (c :: m) c.1 ≠ m'.read c.1 := by
  obtain ⟨-, hc, -⟩ := Memory.wf_cons h
  rwa [Memory.read_head, Memory.read_of_lt h']

/-- Every cell of a memory in canonical form lies above what lies below its first. -/
theorem Memory.lt_of_lt_head {c : Host.Cell} {m : Memory} (h : Memory.wf (c :: m)) {a : Nat} (ha : a < c.1) :
    ∀ d ∈ c :: m, a < d.1 := by
  rintro d hd
  obtain rfl | hd := List.mem_cons.mp hd
  · exact ha
  · exact Nat.lt_trans ha ((Memory.wf_cons h).1 d hd)

/-- Settles O37: cell by cell, the first cells have the same address, since the lower one would differ from the reset
content, and then the same byte, and the memories after them read the same. -/
theorem equalReadsEqualMemory : Obligations.EqualReadsEqualMemory := by
  intro m
  induction m with
  | nil =>
    intro m' _ hm' h
    cases m' with
    | nil => rfl
    | cons c' m' => exact absurd (h c'.1).symm (Memory.read_head_ne hm' nofun)
  | cons c m ih =>
    intro m' hm hm' h
    cases m' with
    | nil => exact absurd (h c.1) (Memory.read_head_ne hm nofun)
    | cons c' m' =>
      obtain hlt | haddr | hlt := Nat.lt_trichotomy c.1 c'.1
      · exact absurd (h c.1) (Memory.read_head_ne hm (Memory.lt_of_lt_head hm' hlt))
      · have hbyte : c.2 = c'.2 := by rw [← Memory.read_head c m, h, haddr, Memory.read_head]
        obtain rfl : c = c' := Prod.ext haddr hbyte
        obtain ⟨habove, -, htail⟩ := Memory.wf_cons hm
        obtain ⟨habove', -, htail'⟩ := Memory.wf_cons hm'
        rw [ih m' htail htail' fun a => ?_]
        by_cases ha : a = c.1
        · rw [ha, Memory.read_of_lt habove, Memory.read_of_lt habove']
        · simpa only [Memory.read, if_neg ha] using h a
      · exact absurd (h c'.1).symm (Memory.read_head_ne hm' (Memory.lt_of_lt_head hm hlt))

end Sys2Proof.Machine
end

section
/-! Proofs of the statements on `draw` (44_display.md R160 to R163). -/

namespace Sys2Proof.Machine

/-- The meaning of `draw` (44_display.md R162). -/
theorem exec_draw (x y : RegIdx) (n : BitVec 4) (s : State) :
    exec (.draw x y n) s = check (spriteInBounds n s) .outOfBounds s
      ((s.setFb (drawBlit x y n s).1).writeV VF (collisionFlag (drawBlit x y n s).2)) := rfl

/-- A sprite is in bounds when it has no row or its last row is. -/
theorem spriteInBounds_iff (n : BitVec 4) (s : State) :
    spriteInBounds n s = true ↔ n = 0 ∨ effectiveAddress s (n.toNat - 1) ≤ 0xFFF := by
  rw [spriteInBounds, Bool.or_eq_true, beq_iff_eq, inBounds_iff]

/-! ## The blit of `draw` -/

/-- The pixels `drawBlit` visits. -/
def drawnPixels (x y : RegIdx) (n : BitVec 4) (s : State) : List (Column × Row) :=
  spritePixels (s.readV x) (s.readV y) 0 (s.mem.readBytes (effectiveAddress s 0) n.toNat)

theorem drawBlit_eq (x y : RegIdx) (n : BitVec 4) (s : State) :
    drawBlit x y n s = blit s.fb (drawnPixels x y n s) := rfl

/-- The visited pixels are the covered ones. -/
theorem mem_drawnPixels_iff {x y : RegIdx} {n : BitVec 4} {s : State} {cx : Column} {ry : Row} :
    (cx, ry) ∈ drawnPixels x y n s ↔ SpriteCovers s x y n cx ry := by
  have hlen := Memory.length_readBytes s.mem (effectiveAddress s 0) n.toNat
  have hbyte (r : Nat) (hr : r < (s.mem.readBytes (effectiveAddress s 0) n.toNat).length) :
      (s.mem.readBytes (effectiveAddress s 0) n.toNat)[r] = s.mem.read (s.i.toNat + r) := by
    simp [Memory.readBytes, effectiveAddress]
  have hplace (c r : Nat) : (cx, ry) = (spriteColumn (s.readV x) c, spriteRow (s.readV y) (0 + r)) ↔
      cx.val = (s.v[x].toNat + c) % 64 ∧ ry.val = (s.v[y].toNat + r) % 32 := by
    simp only [Prod.mk.injEq, Fin.ext_iff, spriteColumn, spriteRow, Fin.ofNat, State.readV_eq, Nat.zero_add]
  simp only [drawnPixels, mem_spritePixels, hplace, hbyte, spriteBit, hlen, exists_prop, SpriteCovers]

/-- No pixel is visited twice: a sprite has at most 15 rows. -/
theorem drawnPixels_nodup (x y : RegIdx) (n : BitVec 4) (s : State) : (drawnPixels x y n s).Nodup := by
  have hn := n.isLt
  exact spritePixels_nodup _ _ 0 _ (by rw [Memory.length_readBytes]; omega)

/-- A covered pixel is flipped. -/
theorem pixel_drawBlit_of_covers {x y : RegIdx} {n : BitVec 4} {s : State} {cx : Column} {ry : Row}
    (h : SpriteCovers s x y n cx ry) : pixel (drawBlit x y n s).1 cx ry = !pixel s.fb cx ry := by
  rw [drawBlit_eq, pixel_blit _ _ (drawnPixels_nodup x y n s), decide_eq_true (mem_drawnPixels_iff.mpr h),
    Bool.xor_true]

/-- A pixel that is not covered stays. -/
theorem pixel_drawBlit_of_not_covers {x y : RegIdx} {n : BitVec 4} {s : State} {cx : Column} {ry : Row}
    (h : ¬ SpriteCovers s x y n cx ry) : pixel (drawBlit x y n s).1 cx ry = pixel s.fb cx ry := by
  rw [drawBlit_eq, pixel_blit _ _ (drawnPixels_nodup x y n s), decide_eq_false (mt mem_drawnPixels_iff.mp h),
    Bool.xor_false]

/-- The collision: a covered pixel was on. -/
theorem drawBlit_collision_iff (x y : RegIdx) (n : BitVec 4) (s : State) :
    (drawBlit x y n s).2 = true ↔ ∃ cx ry, SpriteCovers s x y n cx ry ∧ pixel s.fb cx ry = true := by
  rw [drawBlit_eq, blit_collision _ _ (drawnPixels_nodup x y n s), List.any_eq_true, Prod.exists]
  simp only [mem_drawnPixels_iff]

/-- What `draw` answers when its sprite is in bounds: the blit's framebuffer, and its collision in VF. -/
theorem exec_draw_of_inBounds {x y : RegIdx} {n : BitVec 4} {s : State}
    (h : n = 0 ∨ effectiveAddress s (n.toNat - 1) ≤ 0xFFF) :
    exec (.draw x y n) s =
      .next ((s.setFb (drawBlit x y n s).1).writeV VF (collisionFlag (drawBlit x y n s).2)) := by
  rw [exec_draw, (spriteInBounds_iff n s).mpr h, check_true]

/-- VF after `draw`. -/
theorem draw_flag (s : State) (f : Framebuffer) (hit : Bool) :
    ((s.setFb f).writeV VF (collisionFlag hit)).v[VF] = if hit then 1 else 0 := by
  rw [State.getElem_writeV_same, collisionFlag, flagOf]

/-- Settles O40: in bounds the blit flips the covered pixels and its collision is VF; out of bounds the check leaves only
the fault. -/
theorem drawFlipsCoveredPixels : Obligations.DrawFlipsCoveredPixels := by
  intro x y n s
  constructor
  · intro hin
    refine ⟨_, exec_draw_of_inBounds hin, fun cx ry => ⟨pixel_drawBlit_of_covers, pixel_drawBlit_of_not_covers⟩,
      fun hon => ?on, fun hoff => ?off, State.writeV_regsExcept _ VF _, ?frame⟩
    case on => rw [draw_flag, if_pos ((drawBlit_collision_iff x y n s).mpr hon)]
    case off =>
      have hmiss : ¬ (drawBlit x y n s).2 = true := fun hhit => by
        obtain ⟨cx, ry, hcov, hon⟩ := (drawBlit_collision_iff x y n s).mp hhit
        exact Bool.false_ne_true ((hoff cx ry hcov).symm.trans hon)
      rw [draw_flag, if_neg hmiss]
    case frame => constructor <;> simp
  · intro hn hout
    have hsprite : spriteInBounds n s ≠ true := fun h =>
      ((spriteInBounds_iff n s).mp h).elim hn (Nat.not_le.mpr hout)
    rw [exec_draw, Bool.eq_false_iff.mpr hsprite, check_false]
    rfl

/-- The covered pixels depend on I, Vx, Vy and the bytes of memory alone. -/
theorem spriteCovers_congr {s u : State} {x y : RegIdx} (hi : u.i = s.i) (hx : u.v[x] = s.v[x])
    (hy : u.v[y] = s.v[y]) (hmem : ∀ a, u.mem.read a = s.mem.read a) (n : BitVec 4) (cx : Column) (ry : Row) :
    SpriteCovers u x y n cx ry ↔ SpriteCovers s x y n cx ry := by
  simp only [SpriteCovers, hi, hx, hy, hmem]

/-- Settles O41: the second draw covers the same pixels, so each is flipped twice, and one is on before it exactly when
it was off before the first. -/
theorem drawTwiceRestores : Obligations.DrawTwiceRestores := by
  intro x y n s t u hin ht hfb hi hx hy hmem
  obtain rfl := Host.Outcome.next.inj ((exec_draw_of_inBounds hin).symm.trans ht)
  have hcov := spriteCovers_congr hi hx hy hmem n
  have hinu : n = 0 ∨ effectiveAddress u (n.toNat - 1) ≤ 0xFFF := by rwa [effectiveAddress, hi]
  have hufb : u.fb = (drawBlit x y n s).1 := hfb
  refine ⟨_, exec_draw_of_inBounds hinu, framebuffer_ext fun cx ry => ?restored, ?flag⟩
  case restored =>
    show pixel (drawBlit x y n u).1 cx ry = pixel s.fb cx ry
    by_cases hc : SpriteCovers s x y n cx ry
    · rw [pixel_drawBlit_of_covers ((hcov cx ry).mpr hc), hufb, pixel_drawBlit_of_covers hc, Bool.not_not]
    · rw [pixel_drawBlit_of_not_covers (mt (hcov cx ry).mp hc), hufb, pixel_drawBlit_of_not_covers hc]
  case flag =>
    have hflag : (if (drawBlit x y n u).2 then (1 : Byte) else 0) = 1 ↔ (drawBlit x y n u).2 = true := by
      cases (drawBlit x y n u).2 <;> decide
    rw [draw_flag, hflag, drawBlit_collision_iff]
    refine exists_congr fun cx => exists_congr fun ry => ?_
    rw [hcov cx ry]
    refine and_congr_right fun hc => ?_
    rw [hufb, pixel_drawBlit_of_covers hc, Bool.not_eq_true']

end Sys2Proof.Machine
end

section
/-! Proof of the statement on `random` (45_timers_random.md R181). -/

namespace Sys2Proof.Machine

/-- The meaning of `random` (45_timers_random.md R181). -/
theorem exec_random (x : RegIdx) (nn : Byte) (s : State) :
    exec (.random x nn) s = .next ((nextRandom s).2.writeV x (Config.rngStream s.rngPos &&& nn)) := rfl

/-- Settles O43: one byte is taken, and its masked value is one register write. -/
theorem randomTakesOneByte : Obligations.RandomTakesOneByte := by
  intro x nn s
  refine ⟨_, exec_random x nn s, fun b _ => ?_, nextRandom_rngPos s, State.writeV_regsExcept _ x _,
    exec_sameExcept (exec_random x nn s)⟩
  rw [State.getElem_writeV_same, BitVec.getLsbD_and]

end Sys2Proof.Machine
end

section
/-! Proofs of the statements on the cycle (30_encoding.md R79 to R82, 60_exceptions.md section 2): what a step answers,
its faults, and what it may change. -/

namespace Sys2Proof.Machine

/-! ## Every answer is a next state (log 1) -/

theorem check_total (c : Bool) (f : FaultKind) (s t : State) : ∃ u, check c f s t = .next u := by
  cases c with
  | true => exact ⟨_, check_true f s t⟩
  | false => exact ⟨_, check_false f s t⟩

/-- Every instruction answers a next state. -/
theorem exec_total (i : Instr) (s : State) : ∃ t, exec i s = .next t := by
  cases i with
  | call nnn =>
    by_cases hsp : s.sp.val = 16
    · exact ⟨_, exec_call_full nnn s hsp⟩
    · exact ⟨_, exec_call_of_lt nnn s (by omega)⟩
  | ret =>
    by_cases hsp : s.sp.val = 0
    · exact ⟨_, exec_ret_empty s hsp⟩
    · exact ⟨_, exec_ret_of_pos s (by omega)⟩
  | draw | storeBcd | storeRegs | loadRegs => exact check_total _ _ _ _
  | _ => exact ⟨_, rfl⟩

/-- A running step with an instruction at pc executes it (30_encoding.md R82). -/
theorem step_of_decode {s : State} {i : Instr} (hr : s.runState = .running) (hb : s.pc.toNat + 1 ≤ 0xFFF)
    (hd : decode (fetchWord s) = .ok i) : step s = exec i s.advance :=
  (cycle_running s hr).trans (cycleRunning_of_decode hb hd)

/-- A running step on an illegal word faults with pc advanced (30_encoding.md R82, decision D8). -/
theorem step_of_illegal {s : State} {e : DecodeError} (hr : s.runState = .running) (hb : s.pc.toNat + 1 ≤ 0xFFF)
    (hd : decode (fetchWord s) = .error e) : step s = .next (s.advance.setRunState (.halted .unknownOpcode)) :=
  (cycle_running s hr).trans (cycleRunning_of_illegal hb hd)

/-- A running step whose fetch is out of bounds faults with pc left (30_encoding.md R80, decision D8). -/
theorem step_of_outOfBounds {s : State} (hr : s.runState = .running) (hb : ¬ s.pc.toNat + 1 ≤ 0xFFF) :
    step s = .next (s.setRunState (.halted .outOfBounds)) :=
  (cycle_running s hr).trans (cycleRunning_of_outOfBounds hb)

/-- A waiting step with a key down takes the least one (46_keypad.md R204). -/
theorem step_waiting_of_key {s : State} {x : RegIdx} {k : KeyIdx} (hr : s.runState = .waitingForKey x)
    (hk : firstKeyDown s.keys = some k) :
    step s = .next ((s.writeV x (BitVec.ofNat 8 k.val)).setRunState .running) := by
  rw [step, cycle_waiting s x hr, cycleWaiting, hk]

/-- A waiting step with no key down changes nothing (46_keypad.md R204). -/
theorem step_waiting_of_no_key {s : State} {x : RegIdx} (hr : s.runState = .waitingForKey x)
    (hk : firstKeyDown s.keys = none) : step s = .next s := by
  rw [step, cycle_waiting s x hr, cycleWaiting, hk]

/-- Every step answers a next state. -/
theorem step_total (s : State) : ∃ t, step s = .next t := by
  cases hr : s.runState with
  | running =>
    by_cases hb : s.pc.toNat + 1 ≤ 0xFFF
    · cases hd : decode (fetchWord s) with
      | ok i => exact step_of_decode hr hb hd ▸ exec_total i s.advance
      | error e => exact ⟨_, step_of_illegal hr hb hd⟩
    · exact ⟨_, step_of_outOfBounds hr hb⟩
  | waitingForKey x =>
    cases hk : firstKeyDown s.keys with
    | some k => exact ⟨_, step_waiting_of_key hr hk⟩
    | none => exact ⟨_, step_waiting_of_no_key hr hk⟩
  | halted f => exact ⟨_, step_halted hr⟩

/-- The host's `cycle` is the step, with the result read off the state after it (log 7). -/
theorem perform_cycle {s t : State} (h : step s = .next t) : perform .cycle s = .next (t, cycleResult t) := by
  rw [perform, h]

/-- Settles O11: a step ends in an instruction, a fault or the waiting cycle, and each answers a next state. -/
theorem everyStepAnswersNext : Obligations.EveryStepAnswersNext := by
  refine ⟨step_total, exec_total, fun op s => ?_⟩
  cases op with
  | cycle =>
    obtain ⟨t, ht⟩ := step_total s
    exact ⟨t, _, perform_cycle ht⟩
  | _ => exact ⟨_, _, rfl⟩

/-! ## The cases of a cycle -/

/-- The word at pc as a number, its first byte the more significant (20_memory.md R57). -/
theorem fetchWord_eq_ofNat (s : State) : fetchWord s =
    BitVec.ofNat 16 ((s.mem.read s.pc.toNat).toNat * 256 + (s.mem.read (s.pc.toNat + 1)).toNat) := by
  rw [← wordOfBytes_toNat, BitVec.ofNat_toNat, BitVec.setWidth_eq]
  rfl

/-- Settles O7: the word at pc is the bytes' number, and the step executes what it decodes to. -/
theorem stepRunsDecodedInstruction : Obligations.StepRunsDecodedInstruction := by
  intro s i hr hb hd
  rw [← fetchWord_eq_ofNat] at hd
  exact step_of_decode hr hb hd

/-- Settles O8: the bound is tested before the advance, and the word decoded after it. -/
theorem fetchAndDecodeFaults : Obligations.FetchAndDecodeFaults := by
  intro s hr
  constructor
  · intro hout
    exact step_of_outOfBounds hr (Nat.not_le.mpr hout)
  · intro hb hd
    rw [← fetchWord_eq_ofNat] at hd
    exact step_of_illegal hr hb hd

/-- Settles O9: the step of a halted state is that state, and its fault is the result. -/
theorem haltedCycleReturnsSameFault : Obligations.HaltedCycleReturnsSameFault := by
  intro s f hr
  rw [perform_cycle (step_halted hr), cycleResult, hr]

/-- Settles O10: the least key that is down is the one the waiting cycle finds, and with none down it finds none. -/
theorem waitingCycle : Obligations.WaitingCycle := by
  intro s t hr
  constructor
  · intro k hk hleast
    refine ⟨_, step_waiting_of_key hr (firstKeyDown_eq_some.mpr ⟨hk, hleast⟩), ?value, s.writeV_regsExcept t _, rfl,
      by constructor <;> simp⟩
    case value =>
      rw [State.setRunState_v, State.getElem_writeV_same]
      exact Nat.mod_eq_of_lt (by omega)
  · intro hnone
    exact step_waiting_of_no_key hr (firstKeyDown_eq_none.mpr hnone)

/-! ## Faults of a running cycle (60_exceptions.md R226) -/

/-- What an instruction does to the run state: nothing, or it waits for a key, or its own check faults before any
write. -/
theorem exec_runState_cases {i : Instr} {s t : State} (h : exec i s = .next t) :
    t.runState = s.runState ∨ (∃ x, i = .waitKey x ∧ t.runState = .waitingForKey x) ∨
      ∃ f, t = s.setRunState (.halted f) := by
  have hcheck {c : Bool} {f : FaultKind} {u : State} (h : check c f s u = .next t) (hu : u.runState = s.runState) :
      t.runState = s.runState ∨ (∃ x, i = .waitKey x ∧ t.runState = .waitingForKey x) ∨
        ∃ f, t = s.setRunState (.halted f) := by
    obtain ⟨-, rfl⟩ | ⟨-, rfl⟩ := check_eq_next.mp h
    · exact .inl hu
    · exact .inr (.inr ⟨f, rfl⟩)
  cases i with
  | call nnn =>
    by_cases hsp : s.sp.val = 16
    · cases (exec_call_full nnn s hsp).symm.trans h
      exact .inr (.inr ⟨_, rfl⟩)
    · cases (exec_call_of_lt nnn s (by omega)).symm.trans h
      exact .inl rfl
  | ret =>
    by_cases hsp : s.sp.val = 0
    · cases (exec_ret_empty s hsp).symm.trans h
      exact .inr (.inr ⟨_, rfl⟩)
    · cases (exec_ret_of_pos s (by omega)).symm.trans h
      exact .inl rfl
  | draw | storeBcd | storeRegs | loadRegs => exact hcheck h rfl
  | waitKey x =>
    cases h
    exact .inr (.inl ⟨x, rfl, rfl⟩)
  | _ => exact .inl ((exec_sameExcept h).runState (by simp [touches]))

/-- An instruction of a running block that faults changes the run state alone. -/
theorem exec_halted {i : Instr} {s t : State} {f : FaultKind} (hr : s.runState = .running) (h : exec i s = .next t)
    (ht : t.runState = .halted f) : t = s.setRunState (.halted f) := by
  obtain hkeep | ⟨x, -, hwait⟩ | ⟨g, rfl⟩ := exec_runState_cases h
  · exact absurd (hr.symm.trans (hkeep.symm.trans ht)) nofun
  · exact absurd (hwait.symm.trans ht) nofun
  · rw [← ht]
    rfl

/-- Settles O12: the fetch faults with pc left, the decode with pc advanced, and an instruction that faults changes the
run state alone. -/
theorem faultsArePrecise : Obligations.FaultsArePrecise := by
  intro s t f hr h ht
  obtain ⟨hout, rfl⟩ | ⟨hb, -, rfl⟩ | ⟨hb, i, -, hexec⟩ := step_running_cases hr h
  · exact ⟨s.setPc_setRunState_sameExcept s.pc _, (if_neg (Nat.not_le.mpr hout)).symm⟩
  · exact ⟨s.setPc_setRunState_sameExcept (s.pc + 2) _, (if_pos hb).symm⟩
  · obtain rfl := exec_halted (s := s.advance) hr hexec ht
    exact ⟨s.setPc_setRunState_sameExcept (s.pc + 2) _, (if_pos hb).symm⟩

/-! ## What a step may change -/

/-- What is the same but for some parts after a new pc is the same but for pc and those parts. -/
theorem SameExcept.of_setPc {ps : List Part} {s t : State} {w : Word} (h : SameExcept ps (s.setPc w) t) :
    SameExcept (.pc :: ps) s t where
  v hp := h.v (List.not_mem_of_not_mem_cons hp)
  i hp := h.i (List.not_mem_of_not_mem_cons hp)
  pc hp := absurd List.mem_cons_self hp
  stack hp := h.stack (List.not_mem_of_not_mem_cons hp)
  sp hp := h.sp (List.not_mem_of_not_mem_cons hp)
  dt hp := h.dt (List.not_mem_of_not_mem_cons hp)
  st hp := h.st (List.not_mem_of_not_mem_cons hp)
  keys hp := h.keys (List.not_mem_of_not_mem_cons hp)
  fb hp := h.fb (List.not_mem_of_not_mem_cons hp)
  mem hp := h.mem (List.not_mem_of_not_mem_cons hp)
  runState hp := h.runState (List.not_mem_of_not_mem_cons hp)
  rngPos hp := h.rngPos (List.not_mem_of_not_mem_cons hp)

/-- The frame of a step: a running cycle changes pc and what its instruction touches, and every other step pc, the
registers and the run state at most. -/
theorem step_frame {s t : State} (h : step s = .next t) :
    (s.runState = .running ∧ ∃ i, decode (fetchWord s) = .ok i ∧ SameExcept (.pc :: touches i) s t) ∨
      SameExcept [.pc, .v, .runState] s t := by
  cases hr : s.runState with
  | running =>
    obtain ⟨-, rfl⟩ | ⟨-, -, rfl⟩ | ⟨-, i, hd, hexec⟩ := step_running_cases hr h
    · exact .inr (by constructor <;> simp)
    · exact .inr (by constructor <;> simp)
    · exact .inl ⟨rfl, i, hd, (exec_sameExcept hexec).of_setPc⟩
  | waitingForKey x =>
    obtain ⟨k, -, rfl⟩ | ⟨-, rfl⟩ := step_waiting_cases hr h
    · exact .inr (by constructor <;> simp)
    · exact .inr (by constructor <;> simp)
  | halted f =>
    obtain rfl := Host.Outcome.next.inj ((step_halted hr).symm.trans h)
    exact .inr (by constructor <;> simp)

/-- A part that a step changes, other than pc, the registers and the run state, is one its running instruction
touches. -/
theorem step_writer {s t : State} {p : Part} (h : step s = .next t) (hp : p ∉ [Part.pc, .v, .runState])
    (hchanged : ∀ ps, SameExcept ps s t → p ∈ ps) :
    s.runState = .running ∧ ∃ i, decode (fetchWord s) = .ok i ∧ p ∈ touches i := by
  obtain ⟨hr, i, hd, hframe⟩ | hframe := step_frame h
  · obtain rfl | hi := List.mem_cons.mp (hchanged _ hframe)
    · exact absurd List.mem_cons_self hp
    · exact ⟨hr, i, hd, hi⟩
  · exact absurd (hchanged _ hframe) hp

/-! ### The instructions that touch each part -/

section
variable {i : Instr}

theorem touches_i (h : Part.i ∈ touches i) :
    (∃ nnn, i = .loadIndex nnn) ∨ (∃ x, i = .addIndex x) ∨ ∃ x, i = .loadFontAddr x := by
  cases i with
  | loadIndex nnn => exact .inl ⟨nnn, rfl⟩
  | addIndex x => exact .inr (.inl ⟨x, rfl⟩)
  | loadFontAddr x => exact .inr (.inr ⟨x, rfl⟩)
  | _ => simp [touches] at h

theorem touches_mem (h : Part.mem ∈ touches i) : (∃ x, i = .storeBcd x) ∨ ∃ x, i = .storeRegs x := by
  cases i with
  | storeBcd x => exact .inl ⟨x, rfl⟩
  | storeRegs x => exact .inr ⟨x, rfl⟩
  | _ => simp [touches] at h

theorem touches_dt (h : Part.dt ∈ touches i) : ∃ x, i = .setDelay x := by
  cases i with
  | setDelay x => exact ⟨x, rfl⟩
  | _ => simp [touches] at h

theorem touches_st (h : Part.st ∈ touches i) : ∃ x, i = .setSound x := by
  cases i with
  | setSound x => exact ⟨x, rfl⟩
  | _ => simp [touches] at h

theorem touches_fb (h : Part.fb ∈ touches i) : i = .clearScreen ∨ ∃ x y n, i = .draw x y n := by
  cases i with
  | clearScreen => exact .inl rfl
  | draw x y n => exact .inr ⟨x, y, n, rfl⟩
  | _ => simp [touches] at h

theorem touches_rngPos (h : Part.rngPos ∈ touches i) : ∃ x nn, i = .random x nn := by
  cases i with
  | random x nn => exact ⟨x, nn, rfl⟩
  | _ => simp [touches] at h

theorem touches_stack (h : Part.stack ∈ touches i) : ∃ nnn, i = .call nnn := by
  cases i with
  | call nnn => exact ⟨nnn, rfl⟩
  | _ => simp [touches] at h

theorem touches_sp (h : Part.sp ∈ touches i) : i = .ret ∨ ∃ nnn, i = .call nnn := by
  cases i with
  | ret => exact .inl rfl
  | call nnn => exact .inr ⟨nnn, rfl⟩
  | _ => simp [touches] at h

theorem not_touches_keys (i : Instr) : Part.keys ∉ touches i := by
  cases i <;> simp [touches]

end

/-- Settles O38: a changed I or byte of memory is one the running instruction touches. -/
theorem indexAndMemoryWriters : Obligations.IndexAndMemoryWriters := by
  intro s t h
  constructor
  · intro hne
    obtain ⟨hr, i, hd, hi⟩ := step_writer h (p := .i) (by decide) fun _ hps => not_imp_comm.mp hps.i hne
    exact ⟨hr, by simpa [hd] using touches_i hi⟩
  · rintro ⟨a, hne⟩
    obtain ⟨hr, i, hd, hi⟩ := step_writer h (p := .mem) (by decide)
      fun ps hps => by_contra fun hp => hne (hps.mem hp a)
    exact ⟨hr, by simpa [hd] using touches_mem hi⟩

/-- Settles O44: a changed device or stack part is one the running instruction touches, and none touches the keys. -/
theorem deviceAndStackWriters : Obligations.DeviceAndStackWriters := by
  intro s t h
  refine ⟨fun hne => ?dt, fun hne => ?st, fun hne => ?fb, fun hne => ?rngPos, fun hne => ?stack, fun hne => ?sp, ?keys⟩
  case dt =>
    obtain ⟨hr, i, hd, hi⟩ := step_writer h (p := .dt) (by decide) fun _ hps => not_imp_comm.mp hps.dt hne
    exact ⟨hr, by simpa [hd] using touches_dt hi⟩
  case st =>
    obtain ⟨hr, i, hd, hi⟩ := step_writer h (p := .st) (by decide) fun _ hps => not_imp_comm.mp hps.st hne
    exact ⟨hr, by simpa [hd] using touches_st hi⟩
  case fb =>
    obtain ⟨hr, i, hd, hi⟩ := step_writer h (p := .fb) (by decide) fun _ hps => not_imp_comm.mp hps.fb hne
    exact ⟨hr, by simpa [hd] using touches_fb hi⟩
  case rngPos =>
    obtain ⟨hr, i, hd, hi⟩ := step_writer h (p := .rngPos) (by decide)
      fun _ hps => not_imp_comm.mp hps.rngPos hne
    exact ⟨hr, by simpa [hd] using touches_rngPos hi⟩
  case stack =>
    obtain ⟨hr, i, hd, hi⟩ := step_writer h (p := .stack) (by decide)
      fun _ hps => not_imp_comm.mp hps.stack hne
    exact ⟨hr, by simpa [hd] using touches_stack hi⟩
  case sp =>
    obtain ⟨hr, i, hd, hi⟩ := step_writer h (p := .sp) (by decide) fun _ hps => not_imp_comm.mp hps.sp hne
    exact ⟨hr, by simpa [hd] using touches_sp hi⟩
  case keys =>
    by_contra hne
    obtain ⟨-, i, -, hi⟩ := step_writer h (p := .keys) (by decide) fun _ hps => not_imp_comm.mp hps.keys hne
    exact not_touches_keys i hi

/-! ## The run state (10_state.md R29) -/

/-- How a step changes the run state. -/
theorem step_runState_cases {s t : State} (h : step s = .next t) :
    t.runState = s.runState ∨
    (s.runState = .running ∧ ∃ x, decode (fetchWord s) = .ok (.waitKey x) ∧ t.runState = .waitingForKey x) ∨
    ((∃ x, s.runState = .waitingForKey x) ∧ (∃ k : KeyIdx, s.keys[k] = true) ∧ t.runState = .running) ∨
    (s.runState = .running ∧ ∃ f, t.runState = .halted f) := by
  cases hr : s.runState with
  | running =>
    obtain ⟨-, rfl⟩ | ⟨-, -, rfl⟩ | ⟨-, i, hd, hexec⟩ := step_running_cases hr h
    · exact .inr (.inr (.inr ⟨rfl, _, rfl⟩))
    · exact .inr (.inr (.inr ⟨rfl, _, rfl⟩))
    · obtain hkeep | ⟨x, rfl, hwait⟩ | ⟨f, rfl⟩ := exec_runState_cases hexec
      · exact .inl (hkeep.trans hr)
      · exact .inr (.inl ⟨rfl, x, hd, hwait⟩)
      · exact .inr (.inr (.inr ⟨rfl, f, rfl⟩))
  | waitingForKey x =>
    obtain ⟨k, hk, rfl⟩ | ⟨-, rfl⟩ := step_waiting_cases hr h
    · exact .inr (.inr (.inl ⟨⟨x, rfl⟩, ⟨k, (firstKeyDown_eq_some.mp hk).1⟩, rfl⟩))
    · exact .inl hr
  | halted f =>
    obtain rfl := Host.Outcome.next.inj ((step_halted hr).symm.trans h)
    exact .inl hr

/-- A load of a program that fits (70_reset_and_hazards.md R261). -/
theorem load_of_fits {bytes : List Byte} (h : programFits bytes = true) (s : State) :
    load bytes s = (loaded bytes s, .ok) := if_pos h

/-- Settles O48: a cycle changes the run state as its step does, a load that fits sets it, and no other operation
writes it. -/
theorem runStateTransitions : Obligations.RunStateTransitions := by
  intro op s t r h hne
  cases op with
  | cycle =>
    obtain ⟨u, hu⟩ := step_total s
    cases (perform_cycle hu).symm.trans h
    obtain hkeep | ⟨hr, x, hd, hwait⟩ | ⟨hx, hk, hrun⟩ | ⟨hr, f, hf⟩ := step_runState_cases hu
    · exact absurd hkeep hne
    · exact .inl ⟨rfl, hr, x, hd, hwait⟩
    · exact .inr (.inl ⟨rfl, hx, hk, hrun⟩)
    · exact .inr (.inr (.inl ⟨rfl, hr, f, hf, by rw [cycleResult, hf]⟩))
  | load bytes =>
    by_cases hfits : programFits bytes = true
    · rw [perform, load_of_fits hfits] at h
      cases h
      exact .inr (.inr (.inr ⟨bytes, rfl, (programFits_iff bytes).mp hfits, rfl⟩))
    · rw [perform, load_of_not_fits hfits] at h
      cases h
      exact absurd rfl hne
  | _ =>
    cases h
    exact absurd rfl hne

end Sys2Proof.Machine
end

section
/-! Proofs of the statements on the invariant (10_state.md R24, 41_control_flow.md R101; log 3): after construction, over
a step, and over every schedule of host operations. -/

namespace Sys2Proof.Machine

/-- What holds of a checked effect, and of the fault, holds of the next state. -/
theorem check_induct {c : Bool} {f : FaultKind} {s t u : State} (P : State → Prop) (h : check c f s t = .next u)
    (ht : c = true → P t) (hs : P (s.setRunState (.halted f))) : P u := by
  obtain ⟨hc, rfl⟩ | ⟨-, rfl⟩ := check_eq_next.mp h
  · exact ht hc
  · exact hs

/-! ## Over an instruction -/

/-- Every instruction keeps memory's canonical form: the stores write inside the bound they checked. -/
theorem exec_mem_wf {i : Instr} {s t : State} (hm : s.mem.wf) (h : exec i s = .next t) : t.mem.wf := by
  cases i with
  | storeBcd x =>
    refine check_induct (·.mem.wf) h (fun hin => Memory.writeBytes_wf hm ?_) hm
    have hin := (inBounds_iff _).mp hin
    simp only [effectiveAddress, length_bcdDigits, Config.memSize] at hin ⊢
    omega
  | storeRegs x =>
    refine check_induct (·.mem.wf) h (fun hin => Memory.writeBytes_wf hm ?_) hm
    have hin := (inBounds_iff _).mp hin
    simp only [effectiveAddress, length_regsUpTo, Config.memSize] at hin ⊢
    omega
  | draw | loadRegs => exact check_induct (·.mem.wf) h (fun _ => hm) hm
  | call nnn =>
    by_cases hsp : s.sp.val = 16
    · cases (exec_call_full nnn s hsp).symm.trans h
      exact hm
    · cases (exec_call_of_lt nnn s (by omega)).symm.trans h
      exact hm
  | ret =>
    by_cases hsp : s.sp.val = 0
    · cases (exec_ret_empty s hsp).symm.trans h
      exact hm
    · cases (exec_ret_of_pos s (by omega)).symm.trans h
      exact hm
  | _ =>
    cases h
    simpa using hm

/-- A skip from a pc of at most 0x1000 ends at most at 0x1002. -/
theorem State.skipIf_pc_le {s : State} (h : s.pc.toNat ≤ 0x1000) (c : Bool) : (s.skipIf c).pc.toNat ≤ 0x1002 := by
  rw [State.skipIf_pc]
  split
  · rw [BitVec.toNat_add]
    exact Nat.le_trans (Nat.mod_le _ _) (Nat.add_le_add_right h 2)
  · omega

/-- The pc after an instruction: that of a fetch advanced once or twice, a return address, or a jump's target. -/
theorem exec_pc_le {i : Instr} {s t : State} (hpc : s.pc.toNat ≤ 0x1000) (hst : ∀ k : Fin 16, s.stack[k].toNat ≤ 0x1000)
    (h : exec i s = .next t) : t.pc.toNat ≤ 0x10FE := by
  have haddr (nnn : BitVec 12) : (addressOf nnn).toNat ≤ 0x10FE := by
    have := nnn.isLt
    rw [addressOf_toNat]
    omega
  cases i with
  | jump nnn =>
    cases h
    exact haddr nnn
  | jumpOffset nnn =>
    cases h
    have := nnn.isLt
    have := s.v[(0 : RegIdx)].isLt
    rw [State.setPc_pc, offsetTarget_toNat, State.readV_eq]
    omega
  | call nnn =>
    by_cases hsp : s.sp.val = 16
    · cases (exec_call_full nnn s hsp).symm.trans h
      exact Nat.le_trans hpc (by decide)
    · cases (exec_call_of_lt nnn s (by omega)).symm.trans h
      exact haddr nnn
  | ret =>
    by_cases hsp : s.sp.val = 0
    · cases (exec_ret_empty s hsp).symm.trans h
      exact Nat.le_trans hpc (by decide)
    · cases (exec_ret_of_pos s (by omega)).symm.trans h
      exact Nat.le_trans (hst ⟨s.sp.val - 1, by omega⟩) (by decide)
  | skipEqImm | skipNeImm | skipEqReg | skipNeReg | skipKeyDown | skipKeyUp =>
    cases h
    exact Nat.le_trans (State.skipIf_pc_le hpc _) (by decide)
  | _ =>
    rw [(exec_sameExcept h).pc (by simp [touches])]
    exact Nat.le_trans hpc (by decide)

/-- The stack after an instruction: `call` alone writes an entry, the advanced pc. -/
theorem exec_stack_le {i : Instr} {s t : State} (hpc : s.pc.toNat ≤ 0x1000)
    (hst : ∀ k : Fin 16, s.stack[k].toNat ≤ 0x1000) (h : exec i s = .next t) (k : Fin 16) :
    t.stack[k].toNat ≤ 0x1000 := by
  by_cases hcall : Part.stack ∈ touches i
  · obtain ⟨nnn, rfl⟩ := touches_stack hcall
    obtain ⟨hpush, hfull⟩ := callPushesAndJumps nnn s
    by_cases hsp : s.sp.val < 16
    · obtain ⟨u, hu, -, -, hentry, -⟩ := hpush hsp
      obtain rfl := Host.Outcome.next.inj (hu.symm.trans h)
      rw [hentry k]
      split
      · exact hpc
      · exact hst k
    · cases (hfull (by omega)).symm.trans h
      exact hst k
  · rw [(exec_sameExcept h).stack hcall]
    exact hst k

/-! ## Over a step and over the host's operations -/

/-- The invariant depends on memory, pc and the stack alone. -/
theorem State.Inv.of_eq {s t : State} (hs : s.Inv) (hmem : t.mem = s.mem) (hpc : t.pc = s.pc)
    (hstack : t.stack = s.stack) : t.Inv := by
  obtain ⟨hm, hp, hst⟩ := hs
  exact ⟨hmem ▸ hm, hpc ▸ hp, hstack ▸ hst⟩

/-- The advance from a fetch in bounds. -/
theorem State.advance_pc_le {s : State} (hb : s.pc.toNat + 1 ≤ 0xFFF) : s.advance.pc.toNat ≤ 0x1000 := by
  rw [State.advance_pc, BitVec.toNat_add]
  exact Nat.le_trans (Nat.mod_le _ _) (Nat.succ_le_succ hb)

/-- Settles O45: a fetch in bounds leaves pc at most 0x1000, from where each instruction keeps each clause; the other
steps leave pc there or change neither pc, memory nor stack. -/
theorem stepKeepsInv : Obligations.StepKeepsInv := by
  intro s t hs h
  cases hr : s.runState with
  | running =>
    obtain ⟨-, rfl⟩ | ⟨hb, -, rfl⟩ | ⟨hb, i, -, hexec⟩ := step_running_cases hr h
    · exact hs.of_eq rfl rfl rfl
    · exact ⟨hs.memory, Nat.le_trans (State.advance_pc_le hb) (by decide), hs.stackBound⟩
    · have hpc := State.advance_pc_le hb
      exact ⟨exec_mem_wf (s := s.advance) hs.memory hexec, exec_pc_le hpc hs.stackBound hexec,
        exec_stack_le hpc hs.stackBound hexec⟩
  | waitingForKey x =>
    obtain ⟨k, -, rfl⟩ | ⟨-, rfl⟩ := step_waiting_cases hr h
    · exact hs.of_eq rfl rfl rfl
    · exact hs
  | halted f =>
    obtain rfl := Host.Outcome.next.inj ((step_halted hr).symm.trans h)
    exact hs

/-- Settles O46: no cell is listed, pc is 0x200 and every entry is 0. -/
theorem resetHasInv : Obligations.ResetHasInv :=
  ⟨Memory.reset_wf, by decide, by decide⟩

/-- A load that fits leaves the invariant, whatever the state before it. -/
theorem loaded_inv {bytes : List Byte} (h : programFits bytes = true) (s : State) : (loaded bytes s).Inv :=
  ⟨loadMemory_wf h, resetHasInv.pcBound, resetHasInv.stackBound⟩

/-- Every host operation keeps the invariant. -/
theorem perform_keeps_inv {op : HostOp} {s t : State} {r : HostResult} (hs : s.Inv) (h : perform op s = .next (t, r)) :
    t.Inv := by
  cases op with
  | cycle =>
    obtain ⟨u, hu⟩ := step_total s
    cases (perform_cycle hu).symm.trans h
    exact stepKeepsInv s t hs hu
  | load bytes =>
    by_cases hfits : programFits bytes = true
    · rw [perform, load_of_fits hfits] at h
      cases h
      exact loaded_inv hfits s
    · rw [perform, load_of_not_fits hfits] at h
      cases h
      exact hs
  | _ =>
    cases h
    exact hs.of_eq rfl rfl rfl

/-- A schedule runs its first operation, and then the others from the state that leaves. -/
theorem performAll_cons_iff {op : HostOp} {ops : List HostOp} {s t : State} {rs : List HostResult} :
    performAll (op :: ops) s = .next (t, rs) ↔
      ∃ u r rs', perform op s = .next (u, r) ∧ performAll ops u = .next (t, rs') ∧ rs = r :: rs' := by
  constructor
  · intro h
    rw [performAll] at h
    split at h
    · cases h
    · cases h
    · next u r hu =>
      split at h
      · next hrest =>
        cases h
        exact ⟨u, r, _, hu, hrest, rfl⟩
      · cases h
      · cases h
  · rintro ⟨u, r, rs', hu, hrest, rfl⟩
    simp only [performAll, hu, hrest]

/-- Settles O47: by induction on the schedule, each operation keeping the invariant. -/
theorem schedulesKeepInv : Obligations.SchedulesKeepInv := by
  intro ops
  induction ops with
  | nil =>
    intro s t rs hs h
    cases h
    exact hs
  | cons op ops ih =>
    intro s t rs hs h
    obtain ⟨u, r, rs', hu, hrest, -⟩ := performAll_cons_iff.mp h
    exact ih u t rs' (perform_keeps_inv hs hu) hrest

end Sys2Proof.Machine
end

section
/-! Proofs of the statements on what a program cannot read (10_state.md R26, R33) and on the end of a run
(70_reset_and_hazards.md R267). -/

namespace Sys2Proof.Machine

/-! ## The call stack and ST as instructions outside `call`, `return` and `set-sound` see them -/

/-- Another stack and another ST in a state. -/
def State.withStackSt (s : State) (k : Vector Word 16) (b : Byte) : State := { s with stack := k, st := b }

/-- A checked effect that commutes with another stack and ST, under a check that does not see them. -/
theorem check_withStackSt {c : Bool} {f : FaultKind} {s t u : State} (k : Vector Word 16) (b : Byte)
    (h : check c f s t = .next u) : check c f (s.withStackSt k b) (t.withStackSt k b) = .next (u.withStackSt k b) := by
  obtain ⟨rfl, rfl⟩ | ⟨rfl, rfl⟩ := check_eq_next.mp h <;> rfl

theorem State.skipIf_withStackSt (s : State) (c : Bool) (k : Vector Word 16) (b : Byte) :
    (s.withStackSt k b).skipIf c = (s.skipIf c).withStackSt k b := by
  cases c <;> rfl

/-- Every other instruction does the same to every other piece of state, whatever the stack and ST hold, and leaves the
two as they are. -/
theorem exec_withStackSt {i : Instr} {s t : State} (k : Vector Word 16) (b : Byte) (hsp : Part.sp ∉ touches i)
    (hst : Part.st ∉ touches i) (h : exec i s = .next t) :
    exec i (s.withStackSt k b) = .next (t.withStackSt k b) := by
  cases i with
  | ret | call | setSound => simp [touches] at hsp hst
  | draw | storeBcd | storeRegs | loadRegs => exact check_withStackSt k b h
  | skipEqImm | skipNeImm | skipEqReg | skipNeReg | skipKeyDown | skipKeyUp =>
    cases h
    exact congrArg Host.Outcome.next (s.skipIf_withStackSt _ k b)
  | _ =>
    cases h
    rfl

/-- A step either executes one instruction, with whatever stack and ST, or does the same whatever the two hold and
leaves them and SP. -/
theorem step_withStackSt {s t : State} (k : Vector Word 16) (b : Byte) (h : step s = .next t) :
    (∃ i, exec i s.advance = .next t ∧ step (s.withStackSt k b) = exec i (s.advance.withStackSt k b)) ∨
      (step (s.withStackSt k b) = .next (t.withStackSt k b) ∧ t.sp = s.sp ∧ t.stack = s.stack ∧ t.st = s.st) := by
  have hr' : (s.withStackSt k b).runState = s.runState := rfl
  cases hr : s.runState with
  | running =>
    by_cases hb : s.pc.toNat + 1 ≤ 0xFFF
    · cases hd : decode (fetchWord s) with
      | ok i => exact .inl ⟨i, step_of_decode hr hb hd ▸ h, step_of_decode (hr'.trans hr) hb hd⟩
      | error e =>
        cases (step_of_illegal hr hb hd).symm.trans h
        exact .inr ⟨step_of_illegal (hr'.trans hr) hb hd, rfl, rfl, rfl⟩
    · cases (step_of_outOfBounds hr hb).symm.trans h
      exact .inr ⟨step_of_outOfBounds (hr'.trans hr) hb, rfl, rfl, rfl⟩
  | waitingForKey x =>
    obtain ⟨j, hj, rfl⟩ | ⟨hnone, rfl⟩ := step_waiting_cases hr h
    · exact .inr ⟨step_waiting_of_key (hr'.trans hr) hj, rfl, rfl, rfl⟩
    · exact .inr ⟨step_waiting_of_no_key (hr'.trans hr) hnone, rfl, rfl, rfl⟩
  | halted f =>
    obtain rfl := Host.Outcome.next.inj ((step_halted hr).symm.trans h)
    exact .inr ⟨step_halted (hr'.trans hr), rfl, rfl, rfl⟩

/-! ## Stale entries (10_state.md R33) -/

/-- A stack that agrees below SP gives a state that differs in stale entries alone. -/
theorem eqUpToStaleStack_withStackSt {s : State} {k : Vector Word 16} {b : Byte} (hb : b = s.st)
    (hk : ∀ j : Fin 16, j.val < s.sp.val → k[j] = s.stack[j]) : EqUpToStaleStack s (s.withStackSt k b) := by
  subst hb
  exact ⟨rfl, hk⟩

/-- Every instruction takes states that differ in stale entries to such states: `call` writes the same entry in both,
`return` reads one below SP, and no other instruction reads an entry. -/
theorem exec_eqUpToStaleStack {i : Instr} {s t : State} {k : Vector Word 16}
    (hk : ∀ j : Fin 16, j.val < s.sp.val → k[j] = s.stack[j]) (h : exec i s = .next t) :
    ∃ t', exec i (s.withStackSt k s.st) = .next t' ∧ EqUpToStaleStack t t' := by
  cases i with
  | call nnn =>
    by_cases hsp : s.sp.val = 16
    · cases (exec_call_full nnn s hsp).symm.trans h
      exact ⟨_, exec_call_full nnn _ hsp, rfl, hk⟩
    · have hlt : s.sp.val < 16 := by omega
      cases (exec_call_of_lt nnn s hlt).symm.trans h
      refine ⟨_, exec_call_of_lt nnn (s.withStackSt k s.st) hlt, rfl, fun j hj => ?_⟩
      show (k.set s.sp.val s.pc hlt)[j] = (s.stack.set s.sp.val s.pc hlt)[j]
      simp only [Fin.getElem_fin, Vector.getElem_set]
      split
      · rfl
      · next hne => exact hk j (Nat.lt_of_le_of_ne (Nat.le_of_lt_succ hj) (Ne.symm hne))
  | ret =>
    by_cases hsp : s.sp.val = 0
    · cases (exec_ret_empty s hsp).symm.trans h
      exact ⟨_, exec_ret_empty _ hsp, rfl, hk⟩
    · have hpos : 0 < s.sp.val := by omega
      cases (exec_ret_of_pos s hpos).symm.trans h
      have hentry : k[s.sp.val - 1] = s.stack[s.sp.val - 1] :=
        hk ⟨s.sp.val - 1, by omega⟩ (Nat.sub_one_lt_of_lt hpos)
      refine ⟨_, exec_ret_of_pos (s.withStackSt k s.st) hpos, ?_, fun j hj => hk j (Nat.lt_of_lt_pred hj)⟩
      simp only [State.withStackSt, hentry]
  | setSound x =>
    cases h
    exact ⟨_, rfl, rfl, hk⟩
  | _ =>
    have hframe := exec_sameExcept h
    refine ⟨_, exec_withStackSt k s.st (by simp [touches]) (by simp [touches]) h,
      eqUpToStaleStack_withStackSt (hframe.st (by simp [touches])).symm ?_⟩
    rw [hframe.sp (by simp [touches]), hframe.stack (by simp [touches])]
    exact hk

/-- Settles O49: a step that executes an instruction is that instruction's case, and the others read no entry. -/
theorem staleStackEntriesNeverObserved : Obligations.StaleStackEntriesNeverObserved := by
  rintro s t s' ⟨ht, hk⟩ h
  have ht : t = s.withStackSt t.stack s.st := ht
  rw [ht]
  obtain ⟨i, hexec, hstep⟩ | ⟨hstep, hsp, hstack, hst⟩ := step_withStackSt t.stack s.st h
  · rw [hstep]
    exact exec_eqUpToStaleStack (s := s.advance) hk hexec
  · refine ⟨_, hstep, eqUpToStaleStack_withStackSt hst.symm ?_⟩
    rw [hsp, hstack]
    exact hk

/-! ## ST (10_state.md R26) -/

/-- Every instruction takes states that differ in ST to such states: `set-sound` writes the same value in both, and no
other instruction reads ST or writes it. -/
theorem exec_otherSt {i : Instr} {s t : State} (b : Byte) (h : exec i s = .next t) :
    ∃ t', exec i (s.withStackSt s.stack b) = .next t' ∧ t' = { t with st := t'.st } := by
  cases i with
  | call nnn =>
    by_cases hsp : s.sp.val = 16
    · cases (exec_call_full nnn s hsp).symm.trans h
      exact ⟨_, exec_call_full nnn _ hsp, rfl⟩
    · cases (exec_call_of_lt nnn s (by omega)).symm.trans h
      exact ⟨_, exec_call_of_lt nnn (s.withStackSt s.stack b) (by simp only [State.withStackSt]; omega), rfl⟩
  | ret =>
    by_cases hsp : s.sp.val = 0
    · cases (exec_ret_empty s hsp).symm.trans h
      exact ⟨_, exec_ret_empty _ hsp, rfl⟩
    · cases (exec_ret_of_pos s (by omega)).symm.trans h
      exact ⟨_, exec_ret_of_pos (s.withStackSt s.stack b) (by simp only [State.withStackSt]; omega), rfl⟩
  | setSound x =>
    cases h
    exact ⟨_, rfl, rfl⟩
  | _ =>
    have hstack : t.stack = s.stack := (exec_sameExcept h).stack (by simp [touches])
    exact ⟨_, exec_withStackSt s.stack b (by simp [touches]) (by simp [touches]) h, hstack ▸ rfl⟩

/-- Settles O50: a step that executes an instruction is that instruction's case, and the others read no ST. -/
theorem soundTimerNeverReadByProgram : Obligations.SoundTimerNeverReadByProgram := by
  intro s s' b h
  obtain ⟨i, hexec, hstep⟩ | ⟨hstep, -, hstack, -⟩ := step_withStackSt s.stack b h
  · obtain ⟨t', ht', hst⟩ := exec_otherSt b hexec
    exact ⟨t', hstep.trans ht', hst⟩
  · exact ⟨_, hstep, hstack ▸ rfl⟩

/-! ## The end of a run (70_reset_and_hazards.md R267) -/

/-- A pc below 0x1000 is its own low 12 bits. -/
theorem addressOf_setWidth {w : Word} (h : w.toNat < 0x1000) : addressOf (w.setWidth 12) = w := by
  apply BitVec.eq_of_toNat_eq
  rw [addressOf_toNat, BitVec.toNat_setWidth]
  exact Nat.mod_eq_of_lt h

/-- The word 0x1000 with a pc below 0x1000 in its low bits is `jump pc`. -/
theorem decode_selfLoop {w : Word} (h : w.toNat < 0x1000) : decode (0x1000 ||| w) = .ok (.jump (w.setWidth 12)) := by
  have hw : (0x1000 : Word) ||| w = wordNNN 0x1 (w.setWidth 12) := by
    apply BitVec.eq_of_toNat_eq
    rw [BitVec.toNat_or, wordNNN, BitVec.toNat_append, BitVec.toNat_setWidth, Nat.mod_eq_of_lt h]
    rfl
  rw [hw]
  exact decode_encodeWithY 0 (.jump (w.setWidth 12))

/-- Settles O51: a halted state steps to itself, and a self-loop's jump takes pc back to its own address. -/
theorem endedRunsAreQuiescent : Obligations.EndedRunsAreQuiescent := by
  rintro s (⟨f, hr⟩ | ⟨hr, hpc, hword⟩)
  · exact step_halted hr
  · have hlt : s.pc.toNat < 0x1000 := by omega
    have hd : decode (fetchWord s) = .ok (.jump (s.pc.setWidth 12)) := hword ▸ decode_selfLoop hlt
    rw [step_of_decode hr (by omega) hd, exec_jump, addressOf_setWidth hlt]
    rfl

end Sys2Proof.Machine
end

section
/-! Proofs of the statements on reset, load, timers, keys and placed words (70_reset_and_hazards.md, 60_exceptions.md). -/

namespace Sys2Proof.Machine

/-! ## Reset and load -/

/-- The reset content of memory: the font, and zeros above it (20_memory.md R51, R55). -/
theorem resetByte_eq (a : Nat) : resetByte a = if a < 80 then fontData.getD a 0 else 0 := by
  rw [resetByte, if_neg (Nat.not_lt_zero a), fontBase, Nat.sub_zero]
  split
  · rfl
  · next h =>
    have hlen : fontData.length = 80 := rfl
    exact List.getD_eq_default _ _ (hlen ▸ Nat.not_lt.mp h)

/-- Settles O52: a load leaves every field but the keys and RngPos as `reset` has it, and the word at 0x200 after
construction is 0x0000. -/
theorem constructionState : Obligations.ConstructionState := by
  constructor
  · intro s hkeys hrng
    have hkeys' : s.keys = Vector.replicate 16 false := Vector.ext fun j hj => by
      rw [Vector.getElem_replicate]
      exact hkeys ⟨j, hj⟩
    rw [load_of_fits (by decide), loaded, hkeys', hrng]
    rfl
  · have hd : decode (fetchWord State.reset) = .error .unknownOpcode := by decide
    exact step_of_illegal rfl (by decide) hd

/-- Settles O53: the size check passes, the program is read back where it was written, and every other address holds its
reset content. -/
theorem loadResetsTheBlock : Obligations.LoadResetsTheBlock := by
  intro bytes s hfits
  have hload : perform (.load bytes) s = .next (loaded bytes s, .ok) := by
    rw [perform, load_of_fits ((programFits_iff bytes).mpr hfits)]
  have hmem (a : Nat) : (loaded bytes s).mem.read a = if 0x200 ≤ a ∧ a < 0x200 + bytes.length
      then bytes.getD (a - 0x200) 0 else if a < 80 then fontData.getD a 0 else 0 := by
    rw [← resetByte_eq]
    exact read_loadMemory bytes a
  exact ⟨_, hload, hmem, fun k => Vector.getElem_replicate k.isLt, rfl, rfl, rfl,
    fun k => Vector.getElem_replicate k.isLt, rfl, rfl, pixel_blank, rfl, rfl, rfl⟩

/-! ## Timers and keys -/

/-- Both timers less n, never below 0. -/
def ticked (n : Nat) (s : State) : State :=
  (s.setDt (BitVec.ofNat 8 (s.dt.toNat - n))).setSt (BitVec.ofNat 8 (s.st.toNat - n))

theorem ticked_zero (s : State) : ticked 0 s = s := by
  simp only [ticked, Nat.sub_zero, BitVec.ofNat_toNat, BitVec.setWidth_eq]
  rfl

/-- One tick more at the front. -/
theorem ticked_tickTimers (n : Nat) (s : State) : ticked n (tickTimers s) = ticked (n + 1) s := by
  have hdt : (tickTimers s).dt.toNat - n = s.dt.toNat - (n + 1) :=
    (congrArg (· - n) (tickByte_toNat s.dt)).trans (by omega)
  have hst : (tickTimers s).st.toNat - n = s.st.toNat - (n + 1) :=
    (congrArg (· - n) (tickByte_toNat s.st)).trans (by omega)
  rw [ticked, ticked, hdt, hst]
  rfl

/-- A schedule of n ticks. -/
theorem performAll_ticks (n : Nat) (s : State) :
    performAll (List.replicate n .tickTimers) s = .next (ticked n s, List.replicate n .none) := by
  induction n generalizing s with
  | zero => rw [ticked_zero]; rfl
  | succ n ih =>
    exact performAll_cons_iff.mpr ⟨tickTimers s, .none, _, rfl, (ih _).trans (by rw [ticked_tickTimers]), rfl⟩

/-- Settles O55: n ticks are one subtraction, which a byte holds, and the timers alone are replaced. -/
theorem ticksCountDown : Obligations.TicksCountDown := by
  intro n s
  have hbyte (b : Byte) : (BitVec.ofNat 8 (b.toNat - n)).toNat = b.toNat - n :=
    Nat.mod_eq_of_lt (Nat.lt_of_le_of_lt (Nat.sub_le _ _) b.isLt)
  exact ⟨_, _, performAll_ticks n s, hbyte s.dt, hbyte s.st, by constructor <;> simp [ticked]⟩

/-- Settles O56: the key alone is written, and the keypad alone is replaced. -/
theorem setKeyWritesOneKey : Obligations.SetKeyWritesOneKey :=
  fun k down s => ⟨_, rfl, fun j => s.getElem_setKey k j down, by constructor <;> simp⟩

/-! ## A placed word (log 4) -/

/-- A decoded table word is the decode of its 16 bits. -/
theorem decode_of_decodeTableWord {nbits w : Nat} {i : Instr} (h : decodeTableWord nbits w = some i) :
    decode (BitVec.ofNat 16 (w % 2 ^ nbits)) = .ok i := by
  have hbytes := decodeBytes_bytesOfWord (BitVec.ofNat 16 (w % 2 ^ nbits)) []
  rw [List.append_nil] at hbytes
  cases hd : decode (BitVec.ofNat 16 (w % 2 ^ nbits)) with
  | ok j => simpa [decodeTableWord, tableBytes, hbytes, hd] using h
  | error e => simp [decodeTableWord, tableBytes, hbytes, hd] at h

/-- A word stored as its two bytes is read back. -/
theorem Memory.readWord_writeBytes {m : Memory} (hm : m.wf) (a : Nat) (w : Word) :
    (m.writeBytes a (bytesOfWord w)).readWord a = w := by
  have h0 : (m.writeBytes a (bytesOfWord w)).read a = w.extractLsb' 8 8 :=
    Memory.read_writeBytes_add hm a (k := 0) (Nat.zero_lt_two)
  have h1 : (m.writeBytes a (bytesOfWord w)).read (a + 1) = w.extractLsb' 0 8 :=
    Memory.read_writeBytes_add hm a (k := 1) (Nat.one_lt_two)
  rw [Memory.readWord, h0, h1]
  exact (adjoin w 0 8 8).trans BitVec.extractLsb'_eq_self

/-- A fetchable address leaves room for a word. -/
theorem fetchableAddress_le (s : State) : (fetchableAddress s).toNat + 1 ≤ 0xFFF := by
  unfold fetchableAddress
  split
  · next h => exact (inBounds_iff _).mp h
  · decide

theorem fetchableAddress_of_le {s : State} (h : s.pc.toNat ≤ 0xFFE) : fetchableAddress s = s.pc :=
  if_pos ((inBounds_iff _).mpr (Nat.succ_le_succ h))

/-- Settles O58: the placed word is read back at a fetchable pc, so the running step executes it after the advance. -/
theorem placedWordRunsNext : Obligations.PlacedWordRunsNext := by
  intro s w i hm hw
  have hfetch : fetchWord (s.withFetchWord 16 w) = BitVec.ofNat 16 (w % 2 ^ 16) := Memory.readWord_writeBytes hm _ _
  have hd : decode (fetchWord (s.withFetchWord 16 w)) = .ok i := hfetch ▸ decode_of_decodeTableWord hw
  refine ⟨_, step_of_decode rfl (fetchableAddress_le s) hd, rfl, ?frame, fun hpc => ?pc⟩
  case frame => constructor <;> simp [State.withFetchWord, placeAtFetch]
  case pc =>
    rw [State.advance_pc, ← fetchableAddress_of_le hpc]
    rfl

end Sys2Proof.Machine
end
